-- ==== Sys2Proof/Word.lean ====
section
/-! DEFINITION. The word types of the core: a 32-bit word, a byte, a 5-bit register index (R7, R9, R10, R14). -/

namespace Sys2Proof

/-- "Word: an opaque 32-bit unsigned bit pattern" (R7, R13). -/
abbrev Word := BitVec 32

/-- The smallest addressable unit of both memories (R32). -/
abbrev Byte := BitVec 8

/-- A register index: a 5-bit field, 0 to 31 (R14, R70). -/
abbrev Reg := BitVec 5

end Sys2Proof
end

