-- ==== Sys2Proof/Config.lean ====
section
/-! DEFINITION. The parameters of a core (R8): what is fixed at construction and what the spec leaves OPEN. -/

namespace Sys2Proof

/-- Meaning of opcode 0x67 with funct3 other than 0 (R74, D14). -/
inductive JalrFunct3Policy where
  /-- The word executes as jalr. -/
  | ignore
  /-- The word is IllegalInstruction. -/
  | illegal
  /-- The model gives the word no meaning. -/
  | refuse
deriving DecidableEq, Repr

/-- Meaning of opcode 0x33 with funct3 in 1, 4, 6, 7 and funct7 other than 0 (R74, D15). -/
inductive RtypeFunct7Policy where
  /-- The word is IllegalInstruction. -/
  | strict
  /-- The word executes as the instruction its funct3 names. -/
  | lenient
  /-- The model gives the word no meaning. -/
  | refuse
deriving DecidableEq, Repr

/-- The configuration that a core carries for its lifetime beside the two capacities (R8, R31). -/
structure Config where
  /-- Emit the UnalignedAccess diagnostic (R31, R110). -/
  warnUnaligned : Bool
  /-- Enable the tracer (R31, R37). -/
  trace : Bool
  jalrPolicy : JalrFunct3Policy
  rtypePolicy : RtypeFunct7Policy
deriving DecidableEq, Repr

/-- The construction arguments of a core and its OPEN launch contents (R8, R122).
The two contents are sparse lists: a byte that is not listed is 0, and an address beyond the capacity is dropped
(DESIGN CHOICE, log 26: safe, every content of R8 can be written so). -/
structure Params where
  /-- IMEM_SIZE, in bytes. -/
  imemSize : Nat
  /-- DMEM_SIZE, in bytes. -/
  dmemSize : Nat
  config : Config
  /-- REG_INIT: x1 is at position 0, x31 at position 30. -/
  regInit : Vector Word 31
  /-- IMEM_INIT. -/
  imemInit : List Host.Cell
  /-- DMEM_INIT. -/
  dmemInit : List Host.Cell
deriving DecidableEq, Repr

/-- The bounds R8 puts on the two capacities. -/
def Params.valid (p : Params) : Bool := decide (p.imemSize ≤ 2 ^ 32) && decide (p.dmemSize ≤ 2 ^ 32)

end Sys2Proof
end

