-- ==== Sys2Proof/Machine/Launch.lean ====
section
/-! DEFINITION. The construction arguments State.reset is built with. R8 and R122 leave each OPEN but for the two
policies' default: every value here is the model's choice, named in the assumption log. -/

namespace Sys2Proof.Machine

/-- IMEM_SIZE and DMEM_SIZE of State.reset: the whole 32-bit space, the largest capacity R8 allows.
DESIGN CHOICE (log 5), unsafe. -/
def resetCapacity : Nat := 2 ^ 32

/-- The configuration of State.reset: both policies at the default of R74 (log 7); WARN_UNALIGNED true and TRACE
false (DESIGN CHOICE, log 6, safe: R31, no effect on state). -/
def resetConfig : Config where
  warnUnaligned := true
  trace := false
  jalrPolicy := .refuse
  rtypePolicy := .refuse

/-- The construction arguments of State.reset: REG_INIT all zero (DESIGN CHOICE, log 3, unsafe) and both launch
contents empty (log 4). -/
def resetParams : Params where
  imemSize := resetCapacity
  dmemSize := resetCapacity
  config := resetConfig
  regInit := Vector.replicate 31 0
  imemInit := []
  dmemInit := []

/-- The bound R8 suggests for the run driver: "default suggested bound: 5,000,000". -/
def suggestedMaxSteps : Nat := 5000000

end Sys2Proof.Machine
end

