-- ==== Sys2Proof/Machine/Bytes.lean ====
section
/-! DEFINITION. Byte order, decided once: little-endian for fetch, loads, stores and the loader (R43, R44, R48). -/

namespace Sys2Proof.Machine

/-- The word whose bytes, from the lowest address up, are b0, b1, b2, b3: b0 is bits 7:0 (R43). -/
def wordOfBytes (b0 b1 b2 b3 : Byte) : Word := b3 ++ b2 ++ b1 ++ b0

/-- Byte k of a word: bits 8k+7 : 8k (R44). -/
def byteOfWord (v : Word) (k : Nat) : Byte := v.extractLsb' (8 * k) 8

/-- The four bytes of a word, lowest address first (R44). -/
def bytesOfWord (v : Word) : List Byte := [byteOfWord v 0, byteOfWord v 1, byteOfWord v 2, byteOfWord v 3]

end Sys2Proof.Machine
end

