-- ==== Sys2Proof/Machine/Memory.lean ====
section
/-! DEFINITION. The bounded byte array both memories are instances of (R32, R42 to R48): a capacity and the listed
bytes in one canonical form. -/

namespace Sys2Proof.Machine

/-- A bounded memory. `size` is its capacity in bytes, fixed at construction (R31, R32); `cells` lists the bytes that
differ from what an unlisted address reads as, addresses strictly rising. -/
structure Memory where
  size : Nat
  cells : List Host.Cell
deriving DecidableEq, Repr

/-- What an address below the capacity reads as when no cell lists it.
DESIGN CHOICE (log 4), unsafe: R122 leaves DMEM_INIT and IMEM_INIT OPEN. Any launch contents can be listed. -/
def unlistedByte : Byte := 0

/-- The byte the cells give an address. -/
def cellsGet : List Host.Cell → Nat → Byte
  | [], _ => unlistedByte
  | (k, b) :: rest, a => if k = a then b else cellsGet rest a

/-- The cells with the byte of one address replaced, in canonical form again. -/
def cellsPut : List Host.Cell → Nat → Byte → List Host.Cell
  | [], a, v => if v = unlistedByte then [] else [(a, v)]
  | (k, b) :: rest, a, v =>
    if a < k then
      if v = unlistedByte then (k, b) :: rest else (a, v) :: (k, b) :: rest
    else if a = k then
      if v = unlistedByte then rest else (a, v) :: rest
    else (k, b) :: cellsPut rest a v

/-- Every listed address is at least `lo`, the addresses rise strictly, no listed byte is the unlisted one, and every
address is below the capacity. -/
def cellsWf (size : Nat) : Nat → List Host.Cell → Bool
  | _, [] => true
  | lo, (k, b) :: rest => decide (lo ≤ k) && decide (k < size) && decide (b ≠ unlistedByte) && cellsWf size (k + 1) rest

/-- The canonical form: equal memories are equal data. -/
def Memory.wf (m : Memory) : Bool := cellsWf m.size 0 m.cells

/-- The byte at an address; none where the memory has no such address (R37, R53). -/
def Memory.byte? (m : Memory) (a : Nat) : Option Byte := if a < m.size then some (cellsGet m.cells a) else none

/-- R42: the access of `len` bytes at `a` is in range. The sum is over unbounded integers (D7; log 14). -/
def Memory.inRange (m : Memory) (a len : Nat) : Bool := decide (a + len ≤ m.size)

/-- `load_u32` (R43): none is OutOfRange, raised before any byte is read. -/
def Memory.loadU32 (m : Memory) (a : Nat) : Option Word :=
  if m.inRange a 4 then
    some (wordOfBytes (cellsGet m.cells a) (cellsGet m.cells (a + 1)) (cellsGet m.cells (a + 2)) (cellsGet m.cells (a + 3)))
  else none

/-- The four byte writes of R44. -/
def Memory.putWord (m : Memory) (a : Nat) (v : Word) : Memory :=
  { m with
    cells := cellsPut (cellsPut (cellsPut (cellsPut m.cells a (byteOfWord v 0)) (a + 1) (byteOfWord v 1))
      (a + 2) (byteOfWord v 2)) (a + 3) (byteOfWord v 3) }

/-- `store_u32` (R44): none is OutOfRange, raised before any byte is written (R45). -/
def Memory.storeU32 (m : Memory) (a : Nat) (v : Word) : Option Memory :=
  if m.inRange a 4 then some (m.putWord a v) else none

/-- The memory with a word placed at an address for the next fetch (log 13): the capacity is raised where the word
does not fit; above 2^32 - 4 no capacity of R8 holds it, and nothing changes. -/
def Memory.placeWord (m : Memory) (a : Nat) (v : Word) : Memory :=
  if a + 4 ≤ 2 ^ 32 then Memory.putWord ⟨max m.size (a + 4), m.cells⟩ a v else m

/-- One launch byte: dropped where the memory has no such address (log 26). -/
def Memory.putInit (m : Memory) (c : Host.Cell) : Memory :=
  if c.1 < m.size then { m with cells := cellsPut m.cells c.1 c.2 } else m

/-- A memory of a capacity with given launch contents (R122); of two bytes for one address the later stands. -/
def Memory.construct (size : Nat) (contents : List Host.Cell) : Memory :=
  contents.foldl Memory.putInit ⟨size, []⟩

end Sys2Proof.Machine
end

