-- ==== Sys2Proof/Machine/State.lean ====
section
/-! DEFINITION. The state of one core instance (10_state.md), the faults, and the state after reset (R122). -/

namespace Sys2Proof.Machine

/-- The two address spaces (R53). -/
inductive Space where
  | imem
  | dmem
deriving DecidableEq, Repr

/-- The faults of R27. Both are the spec's own; a step that raises one latches it in `State.fault`, and a step of a
core with a latched fault answers with it (log 8). -/
inductive Fault where
  /-- R108. Raised by fetch (IMEM, pc) and by lw and sw (DMEM, ea) when the four bytes do not fit. Safe: the spec's
  own fault, and nothing else changes. -/
  | outOfRange (space : Space) (addr : Word)
  /-- R109. Raised by a register-file access with an index above 31; no step makes one (R18). Safe. -/
  | invalidRegister (index : Nat)
deriving DecidableEq, Repr

/-- Why the model gives no next state. -/
inductive Refusal where
  /-- An instruction that has no meaning in the model yet: raised by `exec`'s arms only. Safe. -/
  | notModelled (mnemonic : String)
  /-- The model-only outcome `Refused(pc, word)` of R34 and R74: raised by `step` for a word of an unsettled group
  under policy Refuse, and again while the Refused mark is set. Safe: nothing can be proved of what follows. -/
  | unsettledWord (pc word : Word)
deriving DecidableEq, Repr

/-- The engine's run state (R26). Illegal records the offending pc and raw word (R26, R107; log 25). -/
inductive RunState where
  | running
  | halted
  | illegal (pc word : Word)
deriving DecidableEq, Repr

/-- The model's Refused mark: the pc and raw word of R74's `Refused(pc, word)`. -/
structure RefusedWord where
  pc : Word
  word : Word
deriving DecidableEq, Repr

/-- The state of one core instance. -/
structure State where
  /-- x1 at position 0 to x31 at position 30; x0 has no storage (R14, R17; log 17). -/
  regs : Vector Word 31
  /-- The program counter, a byte address into instruction memory (R21). -/
  pc : Word
  /-- Instruction memory (R32). -/
  imem : Memory
  /-- Data memory (R32). -/
  dmem : Memory
  /-- R26. -/
  runState : RunState
  /-- The fault latch (R27). -/
  fault : Option Fault
  /-- The model-only Refused mark (R28, R74, R122; log 10). -/
  refusedMark : Option RefusedWord
  /-- The loader interface: open until the first step (R36, R122; log 12). -/
  loaderOpen : Bool
  /-- WARN_UNALIGNED, TRACE and the two policies, fixed at construction (R8, R31). -/
  config : Config
deriving DecidableEq, Repr

/-- What `exec` and `step` answer. -/
abbrev Result := Host.Outcome State Fault Refusal

/-- The state after reset of a core with given construction arguments (R122): construction, or the `rst` port. -/
def State.launch (p : Params) : State where
  regs := p.regInit
  pc := 0
  imem := Memory.construct p.imemSize p.imemInit
  dmem := Memory.construct p.dmemSize p.dmemInit
  runState := .running
  fault := none
  refusedMark := none
  loaderOpen := true
  config := p.config

/-- The machine right after reset, at the construction arguments the model names (Launch.lean; logs 3 to 7). -/
def State.reset : State := State.launch resetParams

end Sys2Proof.Machine
end

