-- ==== Sys2Proof/Machine/Ops.lean ====
section
/-! DEFINITION. The named operations over registers, memories and run state that every meaning is written with, among
them the three ways a step ends that are not Continue: Halt, IllegalInstruction and a fault. -/

namespace Sys2Proof.Machine

/-! ## Register file (R14 to R19) -/

/-- `x[i]` for a 5-bit index: register 0 yields 0 (R15, R17). -/
def readReg (s : State) (r : Reg) : Word :=
  if h : r.toNat = 0 then 0 else s.regs[r.toNat - 1]'(by have := r.isLt; omega)

/-- `x[i] <- v` for a 5-bit index: a write to register 0 is a no-op (R16, R17). -/
def writeReg (s : State) (r : Reg) (v : Word) : State :=
  if h : r.toNat = 0 then s else { s with regs := s.regs.set (r.toNat - 1) v (by have := r.isLt; omega) }

/-- `read(index)` of the register-file block for any index: InvalidRegister above 31 (R15, R18, R40). -/
def readIndex (s : State) (index : Nat) : Except Fault Word :=
  if index < 32 then .ok (readReg s (BitVec.ofNat 5 index)) else .error (.invalidRegister index)

/-- `write(index, value)` of the register-file block for any index (R16, R18, R40). -/
def writeIndex (s : State) (index : Nat) (v : Word) : Except Fault State :=
  if index < 32 then .ok (writeReg s (BitVec.ofNat 5 index) v) else .error (.invalidRegister index)

/-! ## Memories (R42 to R50) -/

/-- The state with another data memory. -/
def setDmem (s : State) (m : Memory) : State := { s with dmem := m }

/-- The state with another instruction memory: the loader's alone (R36, R58). -/
def setImem (s : State) (m : Memory) : State := { s with imem := m }

/-- `MemRead(a, 4)` (R43). -/
def memRead (s : State) (a : Word) : Except Fault Word :=
  match s.dmem.loadU32 a.toNat with
  | some v => .ok v
  | none => .error (.outOfRange .dmem a)

/-- `MemWrite(a, 4, v)` (R44). -/
def memWrite (s : State) (a v : Word) : Except Fault State :=
  match s.dmem.storeU32 a.toNat v with
  | some m => .ok (setDmem s m)
  | none => .error (.outOfRange .dmem a)

/-- `IMemRead(pc, 4)`, instruction fetch: no alignment check (R43, R50, D9; log 15). -/
def fetch (s : State) : Except Fault Word :=
  match s.imem.loadU32 s.pc.toNat with
  | some w => .ok w
  | none => .error (.outOfRange .imem s.pc)

/-- The byte at an address of either memory, none outside it (R37, R53). -/
def readByte (s : State) (space : Space) (a : Nat) : Option Byte :=
  match space with
  | .imem => s.imem.byte? a
  | .dmem => s.dmem.byte? a

/-! ## How a step ends (R22, R101, R107, R108) -/

/-- `pc + 4`: the default next pc and the link value, modulo 2^32 (R22, R23, R95). -/
def pcPlus4 (s : State) : Word := s.pc + 4

/-- Continue: commit `pc <- next_pc` (R22, R33). -/
def continueAt (s : State) (next : Word) : State := { s with pc := next }

/-- Halt: `run_state <- Halted`, and the pc stays at the halt word (R101, D10; log 11). -/
def enterHalted (s : State) : State := { s with runState := .halted }

/-- IllegalInstruction: `run_state <- Illegal(pc, word)` and nothing else (R107, D11; log 16). It is terminal: there
is no handler and no return (R113, R114). -/
def takeIllegal (s : State) (w : Word) : State := { s with runState := .illegal s.pc w }

/-- A fault: `fault <- f` and nothing else (R12, R27, R108, D12; log 8). It is terminal (R114). -/
def latchFault (s : State) (f : Fault) : State := { s with fault := some f }

/-- The Refused mark, set by the harness when a step is refused (R28, R74; log 10). -/
def markRefused (s : State) (pc w : Word) : State := { s with refusedMark := some ⟨pc, w⟩ }

/-- Taking a step closes the loader interface (R36; log 12). -/
def closeLoader (s : State) : State := { s with loaderOpen := false }

end Sys2Proof.Machine
end

