-- ==== Sys2Proof/Machine/Flags.lean ====
section
/-! DEFINITION. "The core has no flags, condition codes or predicate registers" (R29): no instruction computes one.
What a branch tests in their place stands here: a comparison of two registers' 32-bit patterns. -/

namespace Sys2Proof.Machine

/-- beq's condition: `a == b` (R98). -/
def regsEqual (s : State) (rs1 rs2 : Reg) : Bool := readReg s rs1 == readReg s rs2

/-- bne's condition: `a != b` (R99). -/
def regsDiffer (s : State) (rs1 rs2 : Reg) : Bool := readReg s rs1 != readReg s rs2

end Sys2Proof.Machine
end

