-- ==== Sys2Proof/Syntax.lean ====
section
/-! DEFINITION. The instructions: one constructor per row of spec/opcode_table.json (R3, R72, R101). -/

namespace Sys2Proof

/-- The 17 instructions and the halt word. Immediates are held as the encoding gives them, before the extension to
32 bits: I and S 12 bits (R65, R66), B 13 bits and J 21 bits with their implicit zero low bit (R67, R69), U the
20 bits word[31:12] (R68, R76). -/
inductive Instr where
  /-- R82 -/
  | add (rd rs1 rs2 : Reg)
  /-- R83 -/
  | sub (rd rs1 rs2 : Reg)
  /-- R84 -/
  | sll (rd rs1 rs2 : Reg)
  /-- R85 -/
  | xor (rd rs1 rs2 : Reg)
  /-- R86 -/
  | srl (rd rs1 rs2 : Reg)
  /-- R87 -/
  | sra (rd rs1 rs2 : Reg)
  /-- R88 -/
  | or (rd rs1 rs2 : Reg)
  /-- R89 -/
  | and (rd rs1 rs2 : Reg)
  /-- R90 -/
  | addi (rd rs1 : Reg) (imm : BitVec 12)
  /-- R92 -/
  | lw (rd rs1 : Reg) (imm : BitVec 12)
  /-- R93 -/
  | sw (rs2 rs1 : Reg) (imm : BitVec 12)
  /-- R98 -/
  | beq (rs1 rs2 : Reg) (off : BitVec 13)
  /-- R99 -/
  | bne (rs1 rs2 : Reg) (off : BitVec 13)
  /-- The word 0x0000006F (R101). -/
  | halt
  /-- R100 -/
  | jal (rd : Reg) (off : BitVec 21)
  /-- R102 -/
  | jalr (rd rs1 : Reg) (imm : BitVec 12)
  /-- R104 -/
  | lui (rd : Reg) (imm : BitVec 20)
  /-- R105 -/
  | auipc (rd : Reg) (imm : BitVec 20)
deriving DecidableEq, Repr

end Sys2Proof
end

