-- ==== Sys2Proof/WellFormed.lean ====
section
/-! DEFINITION. Which terms of Instr stand for a word: three checks, each tried by an ill-formed term in the tests. -/

namespace Sys2Proof

/-- A branch offset has its implicit zero low bit (R67: "It is always even"). -/
def branchOffsetEven (off : BitVec 13) : Bool := !off.getLsbD 0

/-- A jump offset has its implicit zero low bit (R69: "It is always even"). -/
def jumpOffsetEven (off : BitVec 21) : Bool := !off.getLsbD 0

/-- jal with rd = 0 and offset 0 is the halt word, which the halt row takes (R101). -/
def jalNotHaltWord (rd : Reg) (off : BitVec 21) : Bool := !(rd == 0 && off == 0)

/-- The terms that some word decodes to. -/
def Instr.wellFormed : Instr → Bool
  | .add _ _ _ => true
  | .sub _ _ _ => true
  | .sll _ _ _ => true
  | .xor _ _ _ => true
  | .srl _ _ _ => true
  | .sra _ _ _ => true
  | .or _ _ _ => true
  | .and _ _ _ => true
  | .addi _ _ _ => true
  | .lw _ _ _ => true
  | .sw _ _ _ => true
  | .beq _ _ off => branchOffsetEven off
  | .bne _ _ off => branchOffsetEven off
  | .halt => true
  | .jal rd off => jumpOffsetEven off && jalNotHaltWord rd off
  | .jalr _ _ _ => true
  | .lui _ _ => true
  | .auipc _ _ => true

end Sys2Proof
end

