-- ==== Sys2Proof/Decode.lean ====
section
/-! DEFINITION. The bit-field codec (R60, R61), the decoder and its immediates (R64 to R70), the dispatch table
(R71 to R74), the encoder written from the formats of R63, and the opcode table's own rows. -/

namespace Sys2Proof

/-! ## The bit-field codec -/

/-- `extract_bits` of R60: none is the refusal of a call outside its contract (U1, log 27). -/
def extractBits (v : Word) (hi lo : Nat) : Option Word :=
  if hi ≤ 31 ∧ lo ≤ hi then some (BitVec.ofNat 32 (v.toNat / 2 ^ lo % 2 ^ (hi - lo + 1))) else none

/-- `sign_extend` of R61: none is the refusal of a width outside 1 to 32 (U2, log 27). -/
def signExtendBits (v : Word) (width : Nat) : Option Word :=
  if width = 32 then some v
  else if 1 ≤ width ∧ width < 32 then
    some (if v.getLsbD (width - 1)
      then (v &&& ~~~(0xFFFFFFFF#32 <<< width)) ||| (0xFFFFFFFF#32 <<< width)
      else v &&& ~~~(0xFFFFFFFF#32 <<< width))
  else none

/-! ## Fields of a word (R64, R70) -/

def opcodeOf (w : Word) : BitVec 7 := w.extractLsb' 0 7
def rdOf (w : Word) : Reg := w.extractLsb' 7 5
def funct3Of (w : Word) : BitVec 3 := w.extractLsb' 12 3
def rs1Of (w : Word) : Reg := w.extractLsb' 15 5
def rs2Of (w : Word) : Reg := w.extractLsb' 20 5
def funct7Of (w : Word) : BitVec 7 := w.extractLsb' 25 7

/-- R65: word[31:20]. -/
def immIOf (w : Word) : BitVec 12 := w.extractLsb' 20 12

/-- R66: word[31:25] ∥ word[11:7]. -/
def immSOf (w : Word) : BitVec 12 := w.extractLsb' 25 7 ++ w.extractLsb' 7 5

/-- R67: word[31] ∥ word[7] ∥ word[30:25] ∥ word[11:8] ∥ 0. -/
def immBOf (w : Word) : BitVec 13 :=
  w.extractLsb' 31 1 ++ w.extractLsb' 7 1 ++ w.extractLsb' 25 6 ++ w.extractLsb' 8 4 ++ 0#1

/-- R68: word[31:12]. -/
def immUOf (w : Word) : BitVec 20 := w.extractLsb' 12 20

/-- R69: word[31] ∥ word[19:12] ∥ word[20] ∥ word[30:21] ∥ 0. -/
def immJOf (w : Word) : BitVec 21 :=
  w.extractLsb' 31 1 ++ w.extractLsb' 12 8 ++ w.extractLsb' 20 1 ++ w.extractLsb' 21 10 ++ 0#1

/-- The 32-bit immediates: `sext_12`, `sext_13`, `sext_21` (R65, R66, R67, R69). -/
def sext12 (imm : BitVec 12) : Word := imm.signExtend 32
def sext13 (imm : BitVec 13) : Word := imm.signExtend 32
def sext21 (imm : BitVec 21) : Word := imm.signExtend 32

/-- R68: imm_U = word[31:12] ∥ 0^12. -/
def upperImm (imm : BitVec 20) : Word := imm ++ 0#12

/-- The record `decode(word)` of R64: every field and all five 32-bit immediates, for every word (D23). -/
structure Fields where
  opcode : BitVec 7
  funct3 : BitVec 3
  funct7 : BitVec 7
  rd : Reg
  rs1 : Reg
  rs2 : Reg
  immI : Word
  immS : Word
  immB : Word
  immU : Word
  immJ : Word
deriving DecidableEq, Repr

/-- The instruction decoder block (R40, R64): total, and it does not judge legality. -/
def decodeFields (w : Word) : Fields where
  opcode := opcodeOf w
  funct3 := funct3Of w
  funct7 := funct7Of w
  rd := rdOf w
  rs1 := rs1Of w
  rs2 := rs2Of w
  immI := sext12 (immIOf w)
  immS := sext12 (immSOf w)
  immB := sext13 (immBOf w)
  immU := upperImm (immUOf w)
  immJ := sext21 (immJOf w)

/-! ## The major opcodes (R71): one configuration table

0x13 and 0x6F are the source's; the other seven are PRESUMED of RV32I by the spec itself (R71, D20; log 1, unsafe). -/

abbrev opRegister : BitVec 7 := 0x33
abbrev opImmediate : BitVec 7 := 0x13
abbrev opLoad : BitVec 7 := 0x03
abbrev opStore : BitVec 7 := 0x23
abbrev opBranch : BitVec 7 := 0x63
abbrev opJal : BitVec 7 := 0x6F
abbrev opJalr : BitVec 7 := 0x67
abbrev opLui : BitVec 7 := 0x37
abbrev opAuipc : BitVec 7 := 0x17

/-! ## Dispatch (R72, R73, R74) -/

/-- Why a word is IllegalInstruction (R73). -/
inductive IllegalReason where
  /-- No row has the word's opcode. -/
  | opcode
  /-- The opcode's family has no row with the word's funct3. -/
  | funct3
  /-- add/sub and srl/sra need funct7 0x00 or 0x20. -/
  | funct7
deriving DecidableEq, Repr

/-- The two groups of words the source does not settle (R74). -/
inductive Unsettled where
  /-- funct7 other than 0 with sll, xor, or, and: RTYPE_FUNCT7_POLICY (D15). -/
  | rtypeFunct7
  /-- jalr's opcode with funct3 other than 0: JALR_FUNCT3_POLICY (D14). -/
  | jalrFunct3
deriving DecidableEq, Repr

/-- What the dispatch table says of a word, before any policy (R75: "Every word is one of"). -/
inductive Verdict where
  /-- An instruction of R72. -/
  | instr (i : Instr)
  /-- IllegalInstruction under every policy (R73). -/
  | illegal (why : IllegalReason)
  /-- Its meaning is a policy's; `i` is the instruction it executes as under Lenient or Ignore (R74). -/
  | unsettled (g : Unsettled) (i : Instr)
deriving DecidableEq, Repr

/-- Opcode 0x33 with a funct3 that the source lists without a funct7 (R74). -/
def settledIfFunct7Zero (w : Word) (i : Instr) : Verdict :=
  if funct7Of w = 0x00 then .instr i else .unsettled .rtypeFunct7 i

/-- Opcode 0x33 with a funct3 that two instructions share (R72, R73). -/
def byFunct7 (w : Word) (at00 at20 : Instr) : Verdict :=
  if funct7Of w = 0x00 then .instr at00
  else if funct7Of w = 0x20 then .instr at20
  else .illegal .funct7

/-- The rows of opcode 0x33 (R72). -/
def decodeRegister (w : Word) : Verdict :=
  if funct3Of w = 0 then
    byFunct7 w (.add (rdOf w) (rs1Of w) (rs2Of w)) (.sub (rdOf w) (rs1Of w) (rs2Of w))
  else if funct3Of w = 1 then settledIfFunct7Zero w (.sll (rdOf w) (rs1Of w) (rs2Of w))
  else if funct3Of w = 4 then settledIfFunct7Zero w (.xor (rdOf w) (rs1Of w) (rs2Of w))
  else if funct3Of w = 5 then
    byFunct7 w (.srl (rdOf w) (rs1Of w) (rs2Of w)) (.sra (rdOf w) (rs1Of w) (rs2Of w))
  else if funct3Of w = 6 then settledIfFunct7Zero w (.or (rdOf w) (rs1Of w) (rs2Of w))
  else if funct3Of w = 7 then settledIfFunct7Zero w (.and (rdOf w) (rs1Of w) (rs2Of w))
  else .illegal .funct3

/-- The rows of opcode 0x63 (R72). -/
def decodeBranch (w : Word) : Verdict :=
  if funct3Of w = 0 then .instr (.beq (rs1Of w) (rs2Of w) (immBOf w))
  else if funct3Of w = 1 then .instr (.bne (rs1Of w) (rs2Of w) (immBOf w))
  else .illegal .funct3

/-- Opcode 0x6F: the halt row goes before the jal row (R101). -/
def decodeJal (w : Word) : Verdict :=
  if rdOf w = 0 ∧ immJOf w = 0 then .instr .halt else .instr (.jal (rdOf w) (immJOf w))

/-- Opcode 0x67 (R72, R74). -/
def decodeJalr (w : Word) : Verdict :=
  if funct3Of w = 0 then .instr (.jalr (rdOf w) (rs1Of w) (immIOf w))
  else .unsettled .jalrFunct3 (.jalr (rdOf w) (rs1Of w) (immIOf w))

/-- An opcode with one legal funct3 (R72, R73). -/
def onlyFunct3 (w : Word) (f3 : BitVec 3) (i : Instr) : Verdict :=
  if funct3Of w = f3 then .instr i else .illegal .funct3

/-- The dispatch table of R72: total on every word, the last arm being R73's "Any other opcode". -/
def decode (w : Word) : Verdict :=
  if opcodeOf w = opRegister then decodeRegister w
  else if opcodeOf w = opImmediate then onlyFunct3 w 0 (.addi (rdOf w) (rs1Of w) (immIOf w))
  else if opcodeOf w = opLoad then onlyFunct3 w 2 (.lw (rdOf w) (rs1Of w) (immIOf w))
  else if opcodeOf w = opStore then onlyFunct3 w 2 (.sw (rs2Of w) (rs1Of w) (immSOf w))
  else if opcodeOf w = opBranch then decodeBranch w
  else if opcodeOf w = opJal then decodeJal w
  else if opcodeOf w = opJalr then decodeJalr w
  else if opcodeOf w = opLui then .instr (.lui (rdOf w) (immUOf w))
  else if opcodeOf w = opAuipc then .instr (.auipc (rdOf w) (immUOf w))
  else .illegal .opcode

/-- What a core of a given configuration does with a word. -/
inductive Action where
  /-- Execute the instruction. -/
  | execute (i : Instr)
  /-- IllegalInstruction (R107). -/
  | illegal
  /-- The model-only outcome Refused (R74). -/
  | refuse
deriving DecidableEq, Repr

/-- The meaning a configuration gives an unsettled word (R74). -/
def unsettledAction (c : Config) (g : Unsettled) (i : Instr) : Action :=
  match g with
  | .rtypeFunct7 =>
    match c.rtypePolicy with
    | .strict => .illegal
    | .lenient => .execute i
    | .refuse => .refuse
  | .jalrFunct3 =>
    match c.jalrPolicy with
    | .ignore => .execute i
    | .illegal => .illegal
    | .refuse => .refuse

/-- A verdict under a configuration. -/
def Verdict.action (c : Config) : Verdict → Action
  | .instr i => .execute i
  | .illegal _ => .illegal
  | .unsettled g i => unsettledAction c g i

/-- Dispatch of a word on a core of a given configuration (R72, R74). -/
def dispatch (c : Config) (w : Word) : Action := (decode w).action c

/-! ## Decoding bytes -/

/-- Why a byte string holds no instruction: each reason by name. -/
inductive Reject where
  /-- Fewer than four bytes are left (R62: every instruction is one 32-bit word). -/
  | tooShort
  /-- IllegalInstruction (R73). -/
  | illegal (why : IllegalReason)
  /-- Left to a policy (R74). -/
  | unsettled (g : Unsettled)
deriving DecidableEq, Repr

/-- Decode the first instruction of a byte string, lowest address first: the instruction and the bytes after it. -/
def decodeBytes : List Byte → Except Reject (Instr × List Byte)
  | b0 :: b1 :: b2 :: b3 :: rest =>
    match decode (Machine.wordOfBytes b0 b1 b2 b3) with
    | .instr i => .ok (i, rest)
    | .illegal why => .error (.illegal why)
    | .unsettled g _ => .error (.unsettled g)
  | _ => .error .tooShort

/-- The instruction read from a row of spec/opcode_table.json whose bits are `w`: its bytes are laid out as the core
stores them and given to `decodeBytes`. A word that a policy decides gives none (log 23). -/
def decodeTableWord (nbits w : Nat) : Option Instr :=
  if nbits ≤ 32 then
    match decodeBytes (Machine.bytesOfWord (BitVec.ofNat 32 (w % 2 ^ nbits))) with
    | .ok (i, _) => some i
    | .error _ => none
  else none

/-! ## The encoder (R63): the six formats -/

def encodeR (f7 : BitVec 7) (rs2 rs1 : Reg) (f3 : BitVec 3) (rd : Reg) (op : BitVec 7) : Word :=
  f7 ++ rs2 ++ rs1 ++ f3 ++ rd ++ op

def encodeI (imm : BitVec 12) (rs1 : Reg) (f3 : BitVec 3) (rd : Reg) (op : BitVec 7) : Word :=
  imm ++ rs1 ++ f3 ++ rd ++ op

def encodeS (imm : BitVec 12) (rs2 rs1 : Reg) (f3 : BitVec 3) (op : BitVec 7) : Word :=
  imm.extractLsb' 5 7 ++ rs2 ++ rs1 ++ f3 ++ imm.extractLsb' 0 5 ++ op

def encodeB (off : BitVec 13) (rs2 rs1 : Reg) (f3 : BitVec 3) (op : BitVec 7) : Word :=
  off.extractLsb' 12 1 ++ off.extractLsb' 5 6 ++ rs2 ++ rs1 ++ f3 ++ off.extractLsb' 1 4 ++ off.extractLsb' 11 1 ++ op

def encodeU (imm : BitVec 20) (rd : Reg) (op : BitVec 7) : Word :=
  imm ++ rd ++ op

def encodeJ (off : BitVec 21) (rd : Reg) (op : BitVec 7) : Word :=
  off.extractLsb' 20 1 ++ off.extractLsb' 1 10 ++ off.extractLsb' 11 1 ++ off.extractLsb' 12 8 ++ rd ++ op

/-- The word of an instruction, from its rule's encoding paragraph (R82 to R105). -/
def encode : Instr → Word
  | .add rd rs1 rs2 => encodeR 0x00 rs2 rs1 0 rd opRegister
  | .sub rd rs1 rs2 => encodeR 0x20 rs2 rs1 0 rd opRegister
  | .sll rd rs1 rs2 => encodeR 0x00 rs2 rs1 1 rd opRegister
  | .xor rd rs1 rs2 => encodeR 0x00 rs2 rs1 4 rd opRegister
  | .srl rd rs1 rs2 => encodeR 0x00 rs2 rs1 5 rd opRegister
  | .sra rd rs1 rs2 => encodeR 0x20 rs2 rs1 5 rd opRegister
  | .or rd rs1 rs2 => encodeR 0x00 rs2 rs1 6 rd opRegister
  | .and rd rs1 rs2 => encodeR 0x00 rs2 rs1 7 rd opRegister
  | .addi rd rs1 imm => encodeI imm rs1 0 rd opImmediate
  | .lw rd rs1 imm => encodeI imm rs1 2 rd opLoad
  | .sw rs2 rs1 imm => encodeS imm rs2 rs1 2 opStore
  | .beq rs1 rs2 off => encodeB off rs2 rs1 0 opBranch
  | .bne rs1 rs2 off => encodeB off rs2 rs1 1 opBranch
  | .halt => 0x0000006F
  | .jal rd off => encodeJ off rd opJal
  | .jalr rd rs1 imm => encodeI imm rs1 0 rd opJalr
  | .lui rd imm => encodeU imm rd opLui
  | .auipc rd imm => encodeU imm rd opAuipc

/-! ## The rows of spec/opcode_table.json -/

/-- A row's mask and match. -/
structure TableRow where
  mask : Word
  pattern : Word
deriving DecidableEq, Repr

/-- The row of the opcode table that an instruction stands for, its numbers copied from the table. -/
def tableRow : Instr → TableRow
  | .add _ _ _ => ⟨0xFE00707F, 0x00000033⟩
  | .sub _ _ _ => ⟨0xFE00707F, 0x40000033⟩
  | .sll _ _ _ => ⟨0xFE00707F, 0x00001033⟩
  | .xor _ _ _ => ⟨0xFE00707F, 0x00004033⟩
  | .srl _ _ _ => ⟨0xFE00707F, 0x00005033⟩
  | .sra _ _ _ => ⟨0xFE00707F, 0x40005033⟩
  | .or _ _ _ => ⟨0xFE00707F, 0x00006033⟩
  | .and _ _ _ => ⟨0xFE00707F, 0x00007033⟩
  | .addi _ _ _ => ⟨0x0000707F, 0x00000013⟩
  | .lw _ _ _ => ⟨0x0000707F, 0x00002003⟩
  | .sw _ _ _ => ⟨0x0000707F, 0x00002023⟩
  | .beq _ _ _ => ⟨0x0000707F, 0x00000063⟩
  | .bne _ _ _ => ⟨0x0000707F, 0x00001063⟩
  | .halt => ⟨0xFFFFFFFF, 0x0000006F⟩
  | .jal _ _ => ⟨0x0000007F, 0x0000006F⟩
  | .jalr _ _ _ => ⟨0x0000707F, 0x00000067⟩
  | .lui _ _ => ⟨0x0000007F, 0x00000037⟩
  | .auipc _ _ => ⟨0x0000007F, 0x00000017⟩

end Sys2Proof
end

