-- ==== Sys2Proof/Machine/Operands.lean ====
section
/-! DEFINITION. Every operand form: registers (R19, in Ops), the five immediates (R65 to R69), the one addressing mode
of lw and sw (R91), and the targets of the control transfers (R95). -/

namespace Sys2Proof.Machine

/-- `ea = x[rs1] + imm` modulo 2^32; the base register is not modified (R91, D8; log 14). -/
def effectiveAddress (s : State) (rs1 : Reg) (imm : BitVec 12) : Word := readReg s rs1 + sext12 imm

/-- `ea[1:0] ≠ 0` (R110). -/
def unaligned (ea : Word) : Bool := ea.extractLsb' 0 2 != 0

/-- `pc + imm_B` modulo 2^32 (R95, R98). -/
def branchTarget (s : State) (off : BitVec 13) : Word := s.pc + sext13 off

/-- `pc + imm_J` modulo 2^32 (R95, R100). -/
def jumpTarget (s : State) (off : BitVec 21) : Word := s.pc + sext21 off

/-- `(x[rs1] + imm_I) & 0xFFFFFFFE` (R95, R102). -/
def jalrTarget (s : State) (rs1 : Reg) (imm : BitVec 12) : Word := (readReg s rs1 + sext12 imm) &&& 0xFFFFFFFE

end Sys2Proof.Machine
end

