-- ==== Sys2Proof/Machine/ControlTransfer.lean ====
section
/-! DEFINITION. beq, bne, jal, the halt word and jalr (43_control_transfer.md). No target is checked for alignment or
range when it is computed, and there is no delay slot (R95, R96). -/

namespace Sys2Proof.Machine

/-- A branch: to the target if taken, else to pc + 4; no register is written (R98, R99). -/
def branchIf (taken : Bool) (off : BitVec 13) (s : State) : Result :=
  .next (continueAt s (if taken then branchTarget s off else pcPlus4 s))

/-- R98 -/
def execBeq (rs1 rs2 : Reg) (off : BitVec 13) (s : State) : Result := branchIf (regsEqual s rs1 rs2) off s

/-- R99 -/
def execBne (rs1 rs2 : Reg) (off : BitVec 13) (s : State) : Result := branchIf (regsDiffer s rs1 rs2) off s

/-- Link pc + 4 in rd and continue at a target computed from the state before the link (R19, R100, R102). -/
def linkAndJump (rd : Reg) (target : Word) (s : State) : Result :=
  .next (continueAt (writeReg s rd (pcPlus4 s)) target)

/-- The halt word (R101). -/
def execHalt (s : State) : Result := .next (enterHalted s)

/-- R100: "if rd == 0 and imm_J == 0: halt"; the decoder gives that word to the halt row (log 18). -/
def execJal (rd : Reg) (off : BitVec 21) (s : State) : Result :=
  if rd = 0 ∧ sext21 off = 0 then .next (enterHalted s) else linkAndJump rd (jumpTarget s off) s

/-- R102: never the halt convention. -/
def execJalr (rd rs1 : Reg) (imm : BitVec 12) (s : State) : Result := linkAndJump rd (jalrTarget s rs1 imm) s

end Sys2Proof.Machine
end

