-- ==== Sys2Proof/Machine/Alu.lean ====
section
/-! DEFINITION. The ALU block: a pure, stateless function of two words that never fails and writes no flag
(R78, R79, R80). -/

namespace Sys2Proof.Machine

/-- The eight operations (R78). -/
inductive AluOp where
  | add
  | sub
  | and
  | or
  | xor
  | shiftLeftLogical
  | shiftRightLogical
  | shiftRightArithmetic
deriving DecidableEq, Repr

/-- "Shift amount is always `b & 0x1F`" (R79). -/
def shiftAmount (b : Word) : Nat := (b &&& 0x1F).toNat

/-- `apply(op, a, b)` (R78). -/
def aluApply (op : AluOp) (a b : Word) : Word :=
  match op with
  | .add => a + b
  | .sub => a - b
  | .and => a &&& b
  | .or => a ||| b
  | .xor => a ^^^ b
  | .shiftLeftLogical => a <<< shiftAmount b
  | .shiftRightLogical => a >>> shiftAmount b
  | .shiftRightArithmetic => a.sshiftRight (shiftAmount b)

end Sys2Proof.Machine
end

