-- ==== Sys2Proof/Machine/RegisterAlu.lean ====
section
/-! DEFINITION. add, sub, sll, xor, srl, sra, or, and (40_register_alu.md). -/

namespace Sys2Proof.Machine

/-- End an instruction whose one effect is a register result: both operands were read from `s` before the write
(R19), and the next pc is pc + 4 (R81). -/
def finishWithResult (s : State) (rd : Reg) (v : Word) : Result :=
  .next (continueAt (writeReg s rd v) (pcPlus4 s))

/-- What the eight instructions share (R81). -/
def execRegister (op : AluOp) (rd rs1 rs2 : Reg) (s : State) : Result :=
  finishWithResult s rd (aluApply op (readReg s rs1) (readReg s rs2))

/-- R82 -/
def execAdd (rd rs1 rs2 : Reg) (s : State) : Result := execRegister .add rd rs1 rs2 s

/-- R83 -/
def execSub (rd rs1 rs2 : Reg) (s : State) : Result := execRegister .sub rd rs1 rs2 s

/-- R84 -/
def execSll (rd rs1 rs2 : Reg) (s : State) : Result := execRegister .shiftLeftLogical rd rs1 rs2 s

/-- R85 -/
def execXor (rd rs1 rs2 : Reg) (s : State) : Result := execRegister .xor rd rs1 rs2 s

/-- R86 -/
def execSrl (rd rs1 rs2 : Reg) (s : State) : Result := execRegister .shiftRightLogical rd rs1 rs2 s

/-- R87 -/
def execSra (rd rs1 rs2 : Reg) (s : State) : Result := execRegister .shiftRightArithmetic rd rs1 rs2 s

/-- R88 -/
def execOr (rd rs1 rs2 : Reg) (s : State) : Result := execRegister .or rd rs1 rs2 s

/-- R89 -/
def execAnd (rd rs1 rs2 : Reg) (s : State) : Result := execRegister .and rd rs1 rs2 s

end Sys2Proof.Machine
end

