-- ==== Sys2Proof/Machine/ImmediateAlu.lean ====
section
/-! DEFINITION. addi (41_immediate_alu.md). -/

namespace Sys2Proof.Machine

/-- R90 -/
def execAddi (rd rs1 : Reg) (imm : BitVec 12) (s : State) : Result :=
  finishWithResult s rd (aluApply .add (readReg s rs1) (sext12 imm))

end Sys2Proof.Machine
end

