-- ==== Sys2Proof/Machine/LoadStore.lean ====
section
/-! DEFINITION. lw and sw (42_load_store.md). The UnalignedAccess diagnostic of both changes no state (R110): it is
in Diagnostics.lean. -/

namespace Sys2Proof.Machine

/-- R92: with rd = x0 the read is still made and can still raise. -/
def execLw (rd rs1 : Reg) (imm : BitVec 12) (s : State) : Result :=
  match memRead s (effectiveAddress s rs1 imm) with
  | .ok v => finishWithResult s rd v
  | .error f => .next (latchFault s f)

/-- R93 -/
def execSw (rs2 rs1 : Reg) (imm : BitVec 12) (s : State) : Result :=
  match memWrite s (effectiveAddress s rs1 imm) (readReg s rs2) with
  | .ok t => .next (continueAt t (pcPlus4 s))
  | .error f => .next (latchFault s f)

end Sys2Proof.Machine
end

