-- ==== Sys2Proof/Machine/UpperImmediate.lean ====
section
/-! DEFINITION. lui and auipc (44_upper_immediate.md). -/

namespace Sys2Proof.Machine

/-- R104 -/
def execLui (rd : Reg) (imm : BitVec 20) (s : State) : Result := finishWithResult s rd (upperImm imm)

/-- R105: pc of this instruction, modulo 2^32. -/
def execAuipc (rd : Reg) (imm : BitVec 20) (s : State) : Result := finishWithResult s rd (s.pc + upperImm imm)

end Sys2Proof.Machine
end

