-- ==== Sys2Proof/Machine/Engine.lean ====
section
/-! DEFINITION. One step of the engine around the meaning of its instruction: when there is a step at all (R28), how
the word at the pc is dispatched (R33), how an answer reads as one of the outcomes of R34, and placing a word where the
next step fetches. -/

namespace Sys2Proof.Machine

/-- A step happens only when run_state = Running, fault = None and no Refused mark is set (R28). -/
def canStep (s : State) : Bool :=
  s.runState == .running && s.fault == none && s.refusedMark == none

/-- The answer of a core that has no step: nothing changes and the terminal outcome is repeated (R28, D13). Halted and
Illegal are engine states, reported by the state itself; a fault goes to the failure channel (R27), a Refused mark to
the model's own refusal (logs 8, 9, 10). -/
def repeatTerminal (s : State) : Result :=
  match s.refusedMark with
  | some m => .refused (.unsettledWord m.pc m.word)
  | none =>
    match s.fault with
    | some f => .fault f
    | none => .next s

/-- The word at the pc, dispatched (R33, steps 1 to 4 up to execution). -/
def fetchAction (s : State) : Except Fault (Word × Action) :=
  match fetch s with
  | .ok w => .ok (w, dispatch s.config w)
  | .error f => .error f

/-- `step()` (R33), with the priority of R111: fetch fault, decode verdict, then the instruction's own outcome.
Taking a step closes the loader interface first (R36; log 12). -/
def runStep (s : State) : Result :=
  if canStep s then
    match fetchAction s with
    | .error f => .next (latchFault (closeLoader s) f)
    | .ok (w, .illegal) => .next (takeIllegal (closeLoader s) w)
    | .ok (w, .refuse) => .refused (.unsettledWord s.pc w)
    | .ok (_, .execute i) => exec i (closeLoader s)
  else repeatTerminal s

/-- The outcomes of a step (R34). -/
inductive StepOutcome where
  | continued (nextPc : Word)
  | halt
  | illegal (pc word : Word)
  | fault (f : Fault)
  | refused (why : Refusal)
deriving DecidableEq, Repr

/-- The outcome a state stands for when it is what a step left: a latched fault, a terminal run state, or
Continue with the committed pc (R34, R106). -/
def stateOutcome (s : State) : StepOutcome :=
  match s.fault with
  | some f => .fault f
  | none =>
    match s.runState with
    | .running => .continued s.pc
    | .halted => .halt
    | .illegal pc w => .illegal pc w

/-- The outcome of R34 that an answer of `step` stands for. -/
def outcomeOf : Result → StepOutcome
  | .next t => stateOutcome t
  | .fault f => .fault f
  | .refused r => .refused r

/-- A Running core whose word at the pc is `w` (log 13). -/
def placeFetchWord (s : State) (w : Word) : State :=
  { s with imem := s.imem.placeWord s.pc.toNat w, runState := .running, fault := none, refusedMark := none }

end Sys2Proof.Machine
end

