-- ==== Sys2Proof/Machine/Step.lean ====
section
/-! DEFINITION. The step the host runs, and the host's way to place an instruction where the next step fetches. -/

namespace Sys2Proof.Machine

/-- `step()` (R33). -/
def step (s : State) : Host.Outcome State Fault Refusal := runStep s

/-- The state whose very next step runs the word whose bits are `w`: the loader's store of R36, made at the pc
(log 13). -/
def State.withFetchWord (s : State) (nbits w : Nat) : State := placeFetchWord s (BitVec.ofNat 32 (w % 2 ^ nbits))

end Sys2Proof.Machine
end

