-- ==== Sys2Proof/Machine/Diagnostics.lean ====
section
/-! DEFINITION. The UnalignedAccess diagnostic (R49, R110, D16): an observation beside the state, a function of the
state before the step, which no rule reads (R41; log 19). -/

namespace Sys2Proof.Machine

/-- The diagnostic's kind (R110). -/
inductive AccessKind where
  | load
  | store
deriving DecidableEq, Repr

/-- `UnalignedAccess(kind, ea)`. -/
structure Diagnostic where
  kind : AccessKind
  addr : Word
deriving DecidableEq, Repr

/-- The data access an instruction makes: its kind and effective address (R51: "Only lw and sw access data memory"). -/
def dataAccess (i : Instr) (s : State) : Option Diagnostic :=
  match i with
  | .add _ _ _ => none
  | .sub _ _ _ => none
  | .sll _ _ _ => none
  | .xor _ _ _ => none
  | .srl _ _ _ => none
  | .sra _ _ _ => none
  | .or _ _ _ => none
  | .and _ _ _ => none
  | .addi _ _ _ => none
  | .lw _ rs1 imm => some ⟨.load, effectiveAddress s rs1 imm⟩
  | .sw _ rs1 imm => some ⟨.store, effectiveAddress s rs1 imm⟩
  | .beq _ _ _ => none
  | .bne _ _ _ => none
  | .halt => none
  | .jal _ _ => none
  | .jalr _ _ _ => none
  | .lui _ _ => none
  | .auipc _ _ => none

/-- The diagnostic an instruction emits: when ea[1:0] ≠ 0 and WARN_UNALIGNED is true, before the bounds check, so
also when the access then faults (R110). -/
def instrDiagnostic (i : Instr) (s : State) : Option Diagnostic :=
  (dataAccess i s).filter fun d => s.config.warnUnaligned && unaligned d.addr

/-- The diagnostic the next step emits, zero or one (R34). A step that is not taken, a fetch that faults and an
illegal or refused word emit none (R73, R107). -/
def stepDiagnostic (s : State) : Option Diagnostic :=
  if canStep s then
    match fetchAction s with
    | .ok (_, .execute i) => instrDiagnostic i s
    | .ok (_, .illegal) => none
    | .ok (_, .refuse) => none
    | .error _ => none
  else none

end Sys2Proof.Machine
end

