-- ==== Sys2Proof/Machine/Driver.lean ====
section
/-! DEFINITION. The run driver, "kept as a harness around the core" (R5, R126, R127, D17; log 22). -/

namespace Sys2Proof.Machine

/-- A core in its harness: the driver's step count (R122, not state of the core, R41) and the diagnostics emitted so
far, oldest first (R110). -/
structure Harness where
  core : State
  stepCount : Nat
  diagnostics : List Diagnostic
deriving DecidableEq, Repr

/-- The harness at construction: driver step count 0 (R122). -/
def Harness.launch (p : Params) : Harness := ⟨State.launch p, 0, []⟩

/-- The core after a refusal: where a step was taken, the Refused mark is set (R74; log 10) and the loader interface is
closed, as by every step taken (R36, R129; log 12); a refusal that was only repeated changes nothing (R28). -/
def coreRefused (s : State) : Refusal → State
  | .unsettledWord pc w => if canStep s then markRefused (closeLoader s) pc w else s
  | _ => s

/-- The core after an answer of `step`: a fault is answered only where it is repeated, which changes nothing (R28). -/
def coreAfter (s : State) : Result → State
  | .next t => t
  | .fault _ => s
  | .refused why => coreRefused s why

/-- One call of `step()` by the driver. -/
def Harness.call (h : Harness) : Harness :=
  ⟨coreAfter h.core (step h.core), h.stepCount + 1, h.diagnostics ++ (stepDiagnostic h.core).toList⟩

/-- How a run ends (R127): exactly one of five ways. -/
inductive RunEnd where
  | halted
  | illegal (pc word : Word)
  | faulted (f : Fault)
  | refused (why : Refusal)
  | stepLimitExceeded (steps : Nat)
deriving DecidableEq, Repr

/-- The end a non-Continue outcome makes of a run; none for Continue (R126). -/
def runEndOf : StepOutcome → Option RunEnd
  | .continued _ => none
  | .halt => some .halted
  | .illegal pc w => some (.illegal pc w)
  | .fault f => some (.faulted f)
  | .refused r => some (.refused r)

/-- The loop of R126 with `left` calls still allowed. -/
def driveFor (maxSteps : Nat) : Nat → Harness → RunEnd × Harness
  | 0, h => (.stepLimitExceeded maxSteps, h)
  | left + 1, h =>
    match runEndOf (outcomeOf (step h.core)) with
    | some e => (e, h.call)
    | none => driveFor maxSteps left h.call

/-- `run(MAX_STEPS)` (R126). -/
def run (maxSteps : Nat) (h : Harness) : RunEnd × Harness := driveFor maxSteps maxSteps h

end Sys2Proof.Machine
end

