-- ==== Sys2Proof/Machine/Loader.lean ====
section
/-! DEFINITION. The loader's contract with the core (R36, R46, R124, D19). -/

namespace Sys2Proof.Machine

/-- What the loader is told when its write is not made; the core's state is unchanged (R36). -/
inductive LoaderError where
  /-- OutOfRange, with the byte address `index*4` as an unbounded product (R46; log 24). -/
  | outOfRange (addr : Nat)
  /-- A write after the first step: the interface is closed (R36, U6). -/
  | refused
deriving DecidableEq, Repr

/-- `write_word_at_index(index, value)`: a little-endian store at byte address `index*4` of instruction memory
(R36, R46). -/
def writeWordAtIndex (s : State) (index : Nat) (value : Word) : Except LoaderError State :=
  if s.loaderOpen then
    match s.imem.storeU32 (index * 4) value with
    | some m => .ok (setImem s m)
    | none => .error (.outOfRange (index * 4))
  else .error .refused

/-- The loader's calls at successive indices (R124, step 2), stopping at the first error. -/
def loadWordsFrom (s : State) (index : Nat) : List Word → Except LoaderError State
  | [] => .ok s
  | w :: rest =>
    match writeWordAtIndex s index w with
    | .ok t => loadWordsFrom t (index + 1) rest
    | .error e => .error e

/-- Load a program: its words from address 0 up (R36, R124). -/
def loadProgram (s : State) (program : List Word) : Except LoaderError State := loadWordsFrom s 0 program

end Sys2Proof.Machine
end

