-- ==== Sys2Proof/Machine/Tracer.lean ====
section
/-! DEFINITION. The tracer's read-only view (R37, R120): functions of the state, which cannot change it. -/

namespace Sys2Proof.Machine

/-- A register by its 5-bit index (R37), with TRACE off too: DESIGN CHOICE (log 20). -/
def traceReg (s : State) (r : Reg) : Word := readReg s r

/-- A contiguous window of either memory: none for each address outside [0, size) (R37, P7). It answers with TRACE off
too: DESIGN CHOICE (log 20), the spec does not say whether TRACE off withholds it. -/
def traceWindow (s : State) (space : Space) (start len : Nat) : List (Option Byte) :=
  (List.range len).map fun k => readByte s space (start + k)

/-- What the tracer can read besides a memory window (R37). -/
structure TraceView where
  regs : List Word
  pc : Word
  runState : RunState
  fault : Option Fault
deriving DecidableEq, Repr

/-- The tracer's view at a pause between steps, taken when TRACE enables the tracer (R8, R37; log 20). -/
def traceView (s : State) : Option TraceView :=
  if s.config.trace then
    some ⟨(List.range 32).map fun k => traceReg s (BitVec.ofNat 5 k), s.pc, s.runState, s.fault⟩
  else none

end Sys2Proof.Machine
end

