-- ==== Sys2Proof/Machine/Ports.lean ====
section
/-! DEFINITION. The port-level framing of R39 (D1, D21): one clock cycle of the block `cpsc440_core` as a function.
An output that R39 says is valid only at times is an Option, none when it is not valid (log 21). -/

namespace Sys2Proof.Machine

/-- The inputs of one cycle (R39). -/
structure PortIn where
  rst : Bool
  stepReq : Bool
  ldWe : Bool
  ldIndex : BitVec 32
  ldData : Word
  dbgRegIdx : Reg
  dbgMemSel : BitVec 1
  dbgAddr : BitVec 32
deriving DecidableEq, Repr

/-- The outputs at the end of one cycle (R39). -/
structure PortOut where
  stepDone : Bool
  outcome : Option (BitVec 2)
  faultKind : Option (BitVec 1)
  faultSpace : Option (BitVec 1)
  faultAddr : Option (BitVec 32)
  illegalPc : Option Word
  illegalWord : Option Word
  nextPc : Option Word
  warnValid : Bool
  warnKind : Option (BitVec 1)
  warnAddr : Option Word
  ldErr : Bool
  dbgRegData : Word
  dbgByte : Option Byte
  dbgByteValid : Bool
  dbgPc : Word
  dbgRunState : BitVec 2
deriving DecidableEq, Repr

/-- fault_space: 0 IMEM, 1 DMEM (R39). -/
def spaceCode : Space → BitVec 1
  | .imem => 0
  | .dmem => 1

/-- dbg_mem_sel: 0 imem, 1 dmem (R39). -/
def spaceOfSel (b : BitVec 1) : Space := if b = 0 then .imem else .dmem

/-- fault_kind: 0 OutOfRange, 1 InvalidRegister (R39). -/
def faultKindCode : Fault → BitVec 1
  | .outOfRange _ _ => 0
  | .invalidRegister _ => 1

/-- fault_space is valid for OutOfRange (R39). -/
def faultSpaceCode : Fault → Option (BitVec 1)
  | .outOfRange space _ => some (spaceCode space)
  | .invalidRegister _ => none

/-- fault_addr: "failing start address, or register index" (R39). -/
def faultAddrCode : Fault → BitVec 32
  | .outOfRange _ addr => addr
  | .invalidRegister index => BitVec.ofNat 32 index

/-- warn_kind: 0 load, 1 store (R39). -/
def accessKindCode : AccessKind → BitVec 1
  | .load => 0
  | .store => 1

/-- dbg_run_state: 0 Running, 1 Halted, 2 Illegal, 3 fault latched (R39). -/
def runStateCode (s : State) : BitVec 2 :=
  match s.fault with
  | some _ => 3
  | none =>
    match s.runState with
    | .running => 0
    | .halted => 1
    | .illegal _ _ => 2

/-- The outputs of a cycle in which no step is answered, with the core in state `s` at its end. -/
def quietOut (inp : PortIn) (s : State) : PortOut where
  stepDone := false
  outcome := none
  faultKind := none
  faultSpace := none
  faultAddr := none
  illegalPc := none
  illegalWord := none
  nextPc := none
  warnValid := false
  warnKind := none
  warnAddr := none
  ldErr := false
  dbgRegData := traceReg s inp.dbgRegIdx
  dbgByte := readByte s (spaceOfSel inp.dbgMemSel) inp.dbgAddr.toNat
  dbgByteValid := (readByte s (spaceOfSel inp.dbgMemSel) inp.dbgAddr.toNat).isSome
  dbgPc := s.pc
  dbgRunState := runStateCode s

/-- The outcome ports: 0 Continue, 1 Halt, 2 Illegal, 3 Fault (R39, R106). Refused is no hardware outcome (R34):
it drives no port. -/
def outcomeOut (out : PortOut) : StepOutcome → PortOut
  | .continued next => { out with stepDone := true, outcome := some 0, nextPc := some next }
  | .halt => { out with stepDone := true, outcome := some 1 }
  | .illegal pc w => { out with stepDone := true, outcome := some 2, illegalPc := some pc, illegalWord := some w }
  | .fault f =>
    { out with
      stepDone := true
      outcome := some 3
      faultKind := some (faultKindCode f)
      faultSpace := faultSpaceCode f
      faultAddr := some (faultAddrCode f) }
  | .refused _ => out

/-- The diagnostic ports (R39, R110). -/
def diagnosticOut (out : PortOut) : Option Diagnostic → PortOut
  | none => out
  | some d => { out with warnValid := true, warnKind := some (accessKindCode d.kind), warnAddr := some d.addr }

/-- A cycle with step_req high: the step is taken, or a terminal outcome repeated (R28); a loader write in the same
cycle is refused with ld_err = 1 (R39). A refused step has no next cycle (R74). -/
def stepCycle (inp : PortIn) (s : State) : Except Refusal (State × PortOut) :=
  match step s with
  | .refused r => .error r
  | .next t =>
    .ok (t, { diagnosticOut (outcomeOut (quietOut inp t) (stateOutcome t)) (stepDiagnostic s) with ldErr := inp.ldWe })
  | .fault f =>
    .ok (s, { outcomeOut (quietOut inp s) (.fault f) with ldErr := inp.ldWe })

/-- A cycle with ld_we high and no step: the loader's word write (R36, R39). -/
def loadCycle (inp : PortIn) (s : State) : State × PortOut :=
  match writeWordAtIndex s inp.ldIndex.toNat inp.ldData with
  | .ok t => (t, quietOut inp t)
  | .error _ => (s, { quietOut inp s with ldErr := true })

/-- One clock cycle (R39). rst is a synchronous reset to R122 at the core's construction arguments; together with
another request, rst alone is answered (log 21). -/
def cycle (p : Params) (inp : PortIn) (s : State) : Except Refusal (State × PortOut) :=
  if inp.rst then .ok (State.launch p, quietOut inp (State.launch p))
  else if inp.stepReq then stepCycle inp s
  else if inp.ldWe then .ok (loadCycle inp s)
  else .ok (s, quietOut inp s)

end Sys2Proof.Machine
end

