-- ==== Sys2Proof/Safety.lean ====
section
/-! DEFINITION. What the claims speak of: the invariant of the engine, the launch premise, and which end of a run
counts as a success. -/

namespace Sys2Proof.Machine

/-- Both memories are in canonical form, every listed byte below its capacity, and no capacity is above 2^32 (R8). -/
def State.memoriesWf (s : State) : Prop :=
  s.imem.wf = true ∧ s.dmem.wf = true ∧ s.imem.size ≤ 2 ^ 32 ∧ s.dmem.size ≤ 2 ^ 32

/-- The pc is even: every branch and jal offset is even and jalr clears bit 0 (R24). Nothing is said of the pc of a
Halted core, which no claim may read (R101, R127; log 11). -/
def State.pcEven (s : State) : Prop := s.runState ≠ .halted → s.pc.getLsbD 0 = false

/-- What a terminal state records is true of the machine: an Illegal state holds its own pc and the word there, which
is IllegalInstruction (R107); a latched fault is the OutOfRange of a Running core, raised by its fetch or by a data
access that does not fit (R27, R50, R108, R18). -/
def State.recordsTrue (s : State) : Prop :=
  (∀ pc w, s.runState = .illegal pc w →
    pc = s.pc ∧ fetch s = .ok w ∧ dispatch s.config w = .illegal) ∧
  (∀ f, s.fault = some f → s.runState = .running ∧
    ((f = .outOfRange .imem s.pc ∧ s.imem.size < s.pc.toNat + 4) ∨
      ∃ ea : Word, f = .outOfRange .dmem ea ∧ s.dmem.size < ea.toNat + 4))

/-- The invariant of the engine. -/
def State.Inv (s : State) : Prop := s.memoriesWf ∧ s.pcEven ∧ s.recordsTrue

/-- The named launch premise (R125): a Running core with no fault and no mark, pc 0, x0 = 0, the program's words in
instruction memory from address 0, and driver step count 0. -/
def CleanLaunch (program : List Word) (h : Harness) : Prop :=
  h.core.runState = .running ∧ h.core.fault = none ∧ h.core.refusedMark = none ∧ h.core.pc = 0 ∧
  readReg h.core 0 = 0 ∧
  (∀ k w, program[k]? = some w → h.core.imem.loadU32 (k * 4) = some w) ∧
  h.stepCount = 0

/-- "Only Halted is a successful end" (R127). -/
def RunEnd.success (e : RunEnd) : Bool := e == .halted

end Sys2Proof.Machine
end

