-- ==== Sys2Proof/Certificates/Slice0/Obligations.lean ====
section
/-! DEFINITION. The statements for the provers. The words they are written with come first. -/

namespace Sys2Proof.Claims

open Sys2Proof.Machine

/-- Every byte of both memories reads as before. -/
def SameBytes (s t : State) : Prop := ∀ space a, readByte t space a = readByte s space a

/-- Every register reads as before. -/
def SameRegs (s t : State) : Prop := ∀ r, readReg t r = readReg s r

/-- All that is neither a register, the pc nor a memory byte is as before. -/
def SameControl (s t : State) : Prop :=
  t.runState = s.runState ∧ t.fault = s.fault ∧ t.refusedMark = s.refusedMark ∧ t.loaderOpen = s.loaderOpen ∧
    t.config = s.config

/-- The instruction completes, with `v` in rd (discarded where rd is x0), `next` in the pc, and its frame. -/
def Writes (i : Instr) (s : State) (rd : Reg) (v next : Word) : Prop :=
  ∃ t, exec i s = .next t ∧ readReg t rd = (if rd = 0 then 0 else v) ∧ (∀ r, r ≠ rd → readReg t r = readReg s r) ∧
    t.pc = next ∧ SameBytes s t ∧ SameControl s t

/-- The instruction completes, writes no register and no memory, and leaves `next` in the pc. -/
def Moves (i : Instr) (s : State) (next : Word) : Prop :=
  ∃ t, exec i s = .next t ∧ SameRegs s t ∧ t.pc = next ∧ SameBytes s t ∧ SameControl s t

/-- The instruction halts the engine: run_state Halted, and no register or memory is written. -/
def Halts (i : Instr) (s : State) : Prop :=
  ∃ t, exec i s = .next t ∧ t.runState = .halted ∧ SameRegs s t ∧ SameBytes s t ∧ t.fault = s.fault ∧
    t.refusedMark = s.refusedMark ∧ t.loaderOpen = s.loaderOpen ∧ t.config = s.config

/-- The instruction latches a fault, and nothing else changes. -/
def Latches (i : Instr) (s : State) (f : Fault) : Prop :=
  ∃ t, exec i s = .next t ∧ t.fault = some f ∧ SameRegs s t ∧ t.pc = s.pc ∧ SameBytes s t ∧
    t.runState = s.runState ∧ t.refusedMark = s.refusedMark ∧ t.loaderOpen = s.loaderOpen ∧ t.config = s.config

/-- Every word with these fixed bits is the instruction its fields name. -/
def Row (mask pattern : Word) (f : Word → Instr) : Prop := ∀ w : Word, w &&& mask = pattern → decode w = .instr (f w)

/-- With this opcode, every funct3 that is not listed is IllegalInstruction under every policy. -/
def OtherFunct3Illegal (opcode : BitVec 7) (listed : List (BitVec 3)) : Prop :=
  ∀ w : Word, w.extractLsb' 0 7 = opcode → w.extractLsb' 12 3 ∉ listed → ∀ c, dispatch c w = .illegal

/-- Opcode 0x33 with this funct3 and another funct7 than 0: the two policies settle it, Lenient as `f` says (R74). -/
def Funct7ByPolicy (funct3 : BitVec 3) (f : Word → Instr) : Prop :=
  ∀ w : Word, w.extractLsb' 0 7 = 0x33#7 → w.extractLsb' 12 3 = funct3 → w.extractLsb' 25 7 ≠ 0 →
    ∀ c : Config, dispatch c w = match c.rtypePolicy with
      | .strict => .illegal
      | .lenient => .execute (f w)
      | .refuse => .refuse

/-- Opcode 0x33 with this funct3: every funct7 but 0x00 and 0x20 is IllegalInstruction under every policy (R73). -/
def Funct7Illegal (funct3 : BitVec 3) : Prop :=
  ∀ w : Word, w.extractLsb' 0 7 = 0x33#7 → w.extractLsb' 12 3 = funct3 → w.extractLsb' 25 7 ≠ 0x00 →
    w.extractLsb' 25 7 ≠ 0x20 → ∀ c, dispatch c w = .illegal

/-- The words R73 lists. -/
def IllegalByRule (w : Word) : Prop :=
  w.extractLsb' 0 7 ∉ [0x33#7, 0x13#7, 0x03#7, 0x23#7, 0x63#7, 0x6F#7, 0x67#7, 0x37#7, 0x17#7] ∨
  (w.extractLsb' 0 7 = 0x33#7 ∧ w.extractLsb' 12 3 ∈ [2#3, 3#3]) ∨
  (w.extractLsb' 0 7 = 0x33#7 ∧ w.extractLsb' 12 3 ∈ [0#3, 5#3] ∧ w.extractLsb' 25 7 ∉ [0x00#7, 0x20#7]) ∨
  (w.extractLsb' 0 7 = 0x13#7 ∧ w.extractLsb' 12 3 ≠ 0) ∨
  (w.extractLsb' 0 7 = 0x03#7 ∧ w.extractLsb' 12 3 ≠ 2) ∨
  (w.extractLsb' 0 7 = 0x23#7 ∧ w.extractLsb' 12 3 ≠ 2) ∨
  (w.extractLsb' 0 7 = 0x63#7 ∧ w.extractLsb' 12 3 ∉ [0#3, 1#3])

/-- The first unsettled group of R74. -/
def RtypeUnsettled (w : Word) : Prop :=
  w.extractLsb' 0 7 = 0x33#7 ∧ w.extractLsb' 12 3 ∈ [1#3, 4#3, 6#3, 7#3] ∧ w.extractLsb' 25 7 ≠ 0

/-- The second unsettled group of R74. -/
def JalrUnsettled (w : Word) : Prop := w.extractLsb' 0 7 = 0x67#7 ∧ w.extractLsb' 12 3 ≠ 0

/-- The instruction the funct3 of an unsettled R-type word names (R74). -/
def namedByFunct3 (w : Word) : Instr :=
  if w.extractLsb' 12 3 = 1#3 then .sll (w.extractLsb' 7 5) (w.extractLsb' 15 5) (w.extractLsb' 20 5)
  else if w.extractLsb' 12 3 = 4#3 then .xor (w.extractLsb' 7 5) (w.extractLsb' 15 5) (w.extractLsb' 20 5)
  else if w.extractLsb' 12 3 = 6#3 then .or (w.extractLsb' 7 5) (w.extractLsb' 15 5) (w.extractLsb' 20 5)
  else .and (w.extractLsb' 7 5) (w.extractLsb' 15 5) (w.extractLsb' 20 5)

/-- A step may be taken (R28). -/
def MayStep (s : State) : Prop := s.runState = .running ∧ s.fault = none ∧ s.refusedMark = none

/-- An IllegalInstruction step: R107's effect, and nothing else. -/
def StepIsIllegal (s : State) (w : Word) : Prop :=
  ∃ t, step s = .next t ∧ t.runState = .illegal s.pc w ∧ SameRegs s t ∧ t.pc = s.pc ∧ SameBytes s t ∧
    t.fault = none ∧ t.refusedMark = none ∧ t.config = s.config ∧ stepDiagnostic s = none ∧
    outcomeOf (step s) = .illegal s.pc w

/-- The four bytes of a memory from an address up. -/
def FourBytes (s : State) (space : Space) (a : Nat) (b0 b1 b2 b3 : Byte) : Prop :=
  readByte s space a = some b0 ∧ readByte s space (a + 1) = some b1 ∧ readByte s space (a + 2) = some b2 ∧
    readByte s space (a + 3) = some b3

/-- The value of bit k of a word as an integer. -/
def bit (w : Word) (k : Nat) : Int := if w.getLsbD k then 1 else 0

/-- The last byte a list of launch contents gives an address; 0 where it gives none (log 26). -/
def launchByte (contents : List Host.Cell) (a : Nat) : Byte :=
  (((contents.filter fun c => c.1 = a).getLast?).map Prod.snd).getD 0

/-- Another setting of the two switches that change diagnostics only (R31). -/
def withSwitches (warn trace : Bool) (s : State) : State :=
  { s with config := { s.config with warnUnaligned := warn, trace := trace } }

/-- An answer with its state, if it has one, changed. -/
def mapState (f : State → State) : Result → Result
  | .next t => .next (f t)
  | .fault r => .fault r
  | .refused r => .refused r

/-- The end the driver would see in the call it makes of a harness. -/
def callEnd (h : Harness) : Option RunEnd := runEndOf (outcomeOf (step h.core))

/-- The code of an outcome at the port (R39, R106). -/
def outcomeCode : StepOutcome → Option (BitVec 2)
  | .continued _ => some 0
  | .halt => some 1
  | .illegal _ _ => some 2
  | .fault _ => some 3
  | .refused _ => none

end Sys2Proof.Claims

open Sys2Proof Sys2Proof.Machine Sys2Proof.Claims

/-! ## Encoding -/

/-- One word of each family, its bits written out from the formats of R63, is the instruction it stands for. -/
def Obligations.WrittenOutWordsDecode : Prop :=
  decode 0b00000000001000001000000110110011#32 = .instr (.add 3 1 2) ∧
  decode 0b01000000001000001101000110110011#32 = .instr (.sra 3 1 2) ∧
  decode 0b00000000010100000000001010010011#32 = .instr (.addi 5 0 5) ∧
  decode 0b11111111110000010010000010000011#32 = .instr (.lw 1 2 0xFFC) ∧
  decode 0b11111110001100010010111000100011#32 = .instr (.sw 3 2 0xFFC) ∧
  decode 0b11111110001000001001110011100011#32 = .instr (.bne 1 2 0x1FF8) ∧
  decode 0b00000000000000000000000001101111#32 = .instr .halt ∧
  decode 0b11111111110111111111000001101111#32 = .instr (.jal 0 0x1FFFFC) ∧
  decode 0b00000000010000010000000011100111#32 = .instr (.jalr 1 2 4) ∧
  decode 0b00010010001101000101000010110111#32 = .instr (.lui 1 0x12345) ∧
  decode 0b00000000000000000001000010010111#32 = .instr (.auipc 1 1)

/-- Decoding the word of any well-formed instruction gives the instruction, with every operand. -/
def Obligations.DecodeOfEncodeIsTheInstruction : Prop :=
  ∀ i : Instr, i.wellFormed = true → decode (encode i) = .instr i

/-- A word that is an instruction is the encoding of that instruction, which is well formed: no two words are one
instruction, and no bit of a word is dropped. -/
def Obligations.EncodeOfDecodeIsTheWord : Prop :=
  ∀ (w : Word) (i : Instr), decode w = .instr i → i.wellFormed = true ∧ encode i = w

/-- The word of every instruction has the fixed bits of its row of the opcode table, and every word with those bits is
that row's instruction: the word of another well-formed instruction has them only where it is the halt word, whose row
goes before jal's. -/
def Obligations.EncodingsMatchTheOpcodeTable : Prop :=
  (∀ i : Instr, encode i &&& (tableRow i).mask = (tableRow i).pattern) ∧
  (∀ i j : Instr, i.wellFormed = true → j.wellFormed = true →
    encode j &&& (tableRow i).mask = (tableRow i).pattern →
    tableRow j = tableRow i ∨ (j = .halt ∧ ∃ rd off, i = .jal rd off))

/-- R73: exactly the listed words are IllegalInstruction under every policy, and their step writes no register or
memory byte, makes no access that could fault, and emits no diagnostic. -/
def Obligations.IllegalWordsAreThoseListed : Prop :=
  ∀ w : Word, (IllegalByRule w ↔ ∀ c, dispatch c w = .illegal) ∧
    ∀ s, MayStep s → fetch s = .ok w → IllegalByRule w → StepIsIllegal s w

/-- The two unsettled groups of R74, each under its policy. The words left to a policy are exactly these; Refuse
answers `Refused(pc, word)`, after which the core, marked so, has no further step (R28); both policies are Refuse at
reset. The model's own choices here: that a step taken closes the loader interface, whichever the policy (log 12, from
R36), and that the harness sets the mark after the answer (log 10). -/
def Obligations.UnsettledWordsFollowTheirPolicy : Prop :=
  (∀ w : Word, (∃ g i, decode w = .unsettled g i) ↔ RtypeUnsettled w ∨ JalrUnsettled w) ∧
  (∀ s w, MayStep s → fetch s = .ok w → RtypeUnsettled w →
    (s.config.rtypePolicy = .strict → StepIsIllegal s w) ∧
    (s.config.rtypePolicy = .lenient → step s = exec (namedByFunct3 w) { s with loaderOpen := false }) ∧
    (s.config.rtypePolicy = .refuse → step s = .refused (.unsettledWord s.pc w))) ∧
  (∀ s w, MayStep s → fetch s = .ok w → JalrUnsettled w →
    (s.config.jalrPolicy = .illegal → StepIsIllegal s w) ∧
    (s.config.jalrPolicy = .ignore →
      step s = exec (.jalr (w.extractLsb' 7 5) (w.extractLsb' 15 5) (w.extractLsb' 20 12)) { s with loaderOpen := false }) ∧
    (s.config.jalrPolicy = .refuse → step s = .refused (.unsettledWord s.pc w))) ∧
  (∀ s pc w, step s = .refused (.unsettledWord pc w) →
    (MayStep s → coreAfter s (step s) = { s with loaderOpen := false, refusedMark := some ⟨pc, w⟩ }) ∧
      step (coreAfter s (step s)) = .refused (.unsettledWord pc w)) ∧
  State.reset.config.rtypePolicy = .refuse ∧ State.reset.config.jalrPolicy = .refuse

/-- R65 to R69: each immediate of a word as an integer computed from the word's bits, with its range. -/
def Obligations.ImmediatesAreTheSignedFields : Prop :=
  ∀ w : Word,
    ((decodeFields w).immI.toInt = ((w.toNat / 2 ^ 20 : ℕ) : Int) - 4096 * bit w 31 ∧
      -2048 ≤ (decodeFields w).immI.toInt ∧ (decodeFields w).immI.toInt ≤ 2047) ∧
    ((decodeFields w).immS.toInt =
        ((w.toNat / 2 ^ 25 * 32 + w.toNat / 2 ^ 7 % 32 : ℕ) : Int) - 4096 * bit w 31 ∧
      -2048 ≤ (decodeFields w).immS.toInt ∧ (decodeFields w).immS.toInt ≤ 2047) ∧
    ((decodeFields w).immB.toInt =
        -4096 * bit w 31 + 2048 * bit w 7 + ((w.toNat / 2 ^ 25 % 64 * 32 + w.toNat / 2 ^ 8 % 16 * 2 : ℕ) : Int) ∧
      -4096 ≤ (decodeFields w).immB.toInt ∧ (decodeFields w).immB.toInt ≤ 4094 ∧
      (decodeFields w).immB.toInt % 2 = 0) ∧
    (decodeFields w).immU.toNat = w.toNat / 2 ^ 12 * 2 ^ 12 ∧
    ((decodeFields w).immJ.toInt =
        -1048576 * bit w 31 + 2048 * bit w 20 +
          ((w.toNat / 2 ^ 12 % 256 * 4096 + w.toNat / 2 ^ 21 % 1024 * 2 : ℕ) : Int) ∧
      -1048576 ≤ (decodeFields w).immJ.toInt ∧ (decodeFields w).immJ.toInt ≤ 1048574 ∧
      (decodeFields w).immJ.toInt % 2 = 0)

/-- R60: extract_bits gives bits hi..lo zero-extended and refuses every other call; the decoder's fields are its
results, and each constant range that a field or an immediate names is a valid call. -/
def Obligations.ExtractBitsReadsTheField : Prop :=
  (∀ (v : Word) (hi lo : Nat), hi ≤ 31 → lo ≤ hi →
    ∃ r, extractBits v hi lo = some r ∧ ∀ k, r.getLsbD k = (decide (k ≤ hi - lo) && v.getLsbD (lo + k))) ∧
  (∀ (v : Word) (hi lo : Nat), (31 < hi ∨ hi < lo) → extractBits v hi lo = none) ∧
  (∀ w : Word,
    extractBits w 6 0 = some ((decodeFields w).opcode.setWidth 32) ∧
    extractBits w 11 7 = some ((decodeFields w).rd.setWidth 32) ∧
    extractBits w 14 12 = some ((decodeFields w).funct3.setWidth 32) ∧
    extractBits w 19 15 = some ((decodeFields w).rs1.setWidth 32) ∧
    extractBits w 24 20 = some ((decodeFields w).rs2.setWidth 32) ∧
    extractBits w 31 25 = some ((decodeFields w).funct7.setWidth 32) ∧
    ∀ range ∈ [(31, 20), (31, 12), (31, 31), (7, 7), (30, 25), (11, 8), (19, 12), (20, 20), (30, 21)],
      (extractBits w range.1 range.2).isSome = true)

/-- R61: sign_extend copies bit width-1 of the value into every higher bit, which is the native signed widening of the
low bits, ignores the bits above, and refuses every other width; the immediates are its results at widths 12, 13
and 21. -/
def Obligations.SignExtendReplicatesTheTopBit : Prop :=
  (∀ (v : Word) (n : Nat), 1 ≤ n → n ≤ 32 →
    ∃ r, signExtendBits v n = some r ∧ signExtendBits ((v.setWidth n).setWidth 32) n = some r ∧
      (∀ k, k < 32 → r.getLsbD k = v.getLsbD (min k (n - 1))) ∧ r.toInt = (v.setWidth n).toInt) ∧
  (∀ (v : Word) (n : Nat), (n = 0 ∨ 32 < n) → signExtendBits v n = none) ∧
  (∀ w : Word,
    signExtendBits ((immIOf w).setWidth 32) 12 = some (decodeFields w).immI ∧
    signExtendBits ((immSOf w).setWidth 32) 12 = some (decodeFields w).immS ∧
    signExtendBits ((immBOf w).setWidth 32) 13 = some (decodeFields w).immB ∧
    signExtendBits ((immJOf w).setWidth 32) 21 = some (decodeFields w).immJ)

/-! ## The ALU and the register-register instructions -/

/-- R78, R79: the eight ALU results as arithmetic: sums and differences modulo 2^32, bitwise operations, and shifts by
b mod 32 that shift in zeros or copies of bit 31. -/
def Obligations.AluResultsAreArithmetic : Prop :=
  ∀ a b : Word,
    (aluApply .add a b).toNat = (a.toNat + b.toNat) % 2 ^ 32 ∧
    ((aluApply .sub a b).toNat : Int) = ((a.toNat : Int) - b.toNat) % 2 ^ 32 ∧
    (∀ k, (aluApply .and a b).getLsbD k = (a.getLsbD k && b.getLsbD k)) ∧
    (∀ k, (aluApply .or a b).getLsbD k = (a.getLsbD k || b.getLsbD k)) ∧
    (∀ k, (aluApply .xor a b).getLsbD k = (a.getLsbD k ^^ b.getLsbD k)) ∧
    (aluApply .shiftLeftLogical a b).toNat = a.toNat * 2 ^ (b.toNat % 32) % 2 ^ 32 ∧
    (aluApply .shiftRightLogical a b).toNat = a.toNat / 2 ^ (b.toNat % 32) ∧
    (aluApply .shiftRightArithmetic a b).toInt = a.toInt / 2 ^ (b.toNat % 32)

/-- R82, R83: add and sub complete with the sum and the difference modulo 2^32 in rd, pc + 4 in the pc, and their
frame; every word of their rows is them, and every other funct7 is illegal. -/
def Obligations.AddSubResults : Prop :=
  (∀ (s : State) (rd rs1 rs2 : Reg),
    Writes (.add rd rs1 rs2) s rd (readReg s rs1 + readReg s rs2) (s.pc + 4) ∧
    Writes (.sub rd rs1 rs2) s rd (readReg s rs1 - readReg s rs2) (s.pc + 4)) ∧
  Row 0xFE00707F 0x00000033 (fun w => .add (w.extractLsb' 7 5) (w.extractLsb' 15 5) (w.extractLsb' 20 5)) ∧
  Row 0xFE00707F 0x40000033 (fun w => .sub (w.extractLsb' 7 5) (w.extractLsb' 15 5) (w.extractLsb' 20 5)) ∧
  Funct7Illegal 0

/-- R84, R86, R87: sll, srl and sra complete with the shift by the low five bits of x[rs2], and their frame; every
word of their rows is them, and every other funct7 is left to the policy (sll) or illegal (srl, sra). -/
def Obligations.ShiftResults : Prop :=
  (∀ (s : State) (rd rs1 rs2 : Reg),
    Writes (.sll rd rs1 rs2) s rd (readReg s rs1 <<< ((readReg s rs2).toNat % 32)) (s.pc + 4) ∧
    Writes (.srl rd rs1 rs2) s rd (readReg s rs1 >>> ((readReg s rs2).toNat % 32)) (s.pc + 4) ∧
    Writes (.sra rd rs1 rs2) s rd ((readReg s rs1).sshiftRight ((readReg s rs2).toNat % 32)) (s.pc + 4)) ∧
  Row 0xFE00707F 0x00001033 (fun w => .sll (w.extractLsb' 7 5) (w.extractLsb' 15 5) (w.extractLsb' 20 5)) ∧
  Row 0xFE00707F 0x00005033 (fun w => .srl (w.extractLsb' 7 5) (w.extractLsb' 15 5) (w.extractLsb' 20 5)) ∧
  Row 0xFE00707F 0x40005033 (fun w => .sra (w.extractLsb' 7 5) (w.extractLsb' 15 5) (w.extractLsb' 20 5)) ∧
  Funct7ByPolicy 1 (fun w => .sll (w.extractLsb' 7 5) (w.extractLsb' 15 5) (w.extractLsb' 20 5)) ∧
  Funct7Illegal 5

/-- R85, R88, R89: xor, or and and complete with the bitwise result, and their frame; every word of their rows is
them, and another funct7 is left to the policy. -/
def Obligations.LogicResults : Prop :=
  (∀ (s : State) (rd rs1 rs2 : Reg),
    Writes (.xor rd rs1 rs2) s rd (readReg s rs1 ^^^ readReg s rs2) (s.pc + 4) ∧
    Writes (.or rd rs1 rs2) s rd (readReg s rs1 ||| readReg s rs2) (s.pc + 4) ∧
    Writes (.and rd rs1 rs2) s rd (readReg s rs1 &&& readReg s rs2) (s.pc + 4)) ∧
  Row 0xFE00707F 0x00004033 (fun w => .xor (w.extractLsb' 7 5) (w.extractLsb' 15 5) (w.extractLsb' 20 5)) ∧
  Row 0xFE00707F 0x00006033 (fun w => .or (w.extractLsb' 7 5) (w.extractLsb' 15 5) (w.extractLsb' 20 5)) ∧
  Row 0xFE00707F 0x00007033 (fun w => .and (w.extractLsb' 7 5) (w.extractLsb' 15 5) (w.extractLsb' 20 5)) ∧
  Funct7ByPolicy 4 (fun w => .xor (w.extractLsb' 7 5) (w.extractLsb' 15 5) (w.extractLsb' 20 5)) ∧
  Funct7ByPolicy 6 (fun w => .or (w.extractLsb' 7 5) (w.extractLsb' 15 5) (w.extractLsb' 20 5)) ∧
  Funct7ByPolicy 7 (fun w => .and (w.extractLsb' 7 5) (w.extractLsb' 15 5) (w.extractLsb' 20 5))

/-- R90: addi completes with x[rs1] plus the sign-extended immediate modulo 2^32, and its frame; every word of its row
is it, and every other funct3 is illegal. -/
def Obligations.AddiResult : Prop :=
  (∀ (s : State) (rd rs1 : Reg) (imm : BitVec 12),
    Writes (.addi rd rs1 imm) s rd (readReg s rs1 + imm.signExtend 32) (s.pc + 4)) ∧
  Row 0x0000707F 0x00000013 (fun w => .addi (w.extractLsb' 7 5) (w.extractLsb' 15 5) (w.extractLsb' 20 12)) ∧
  OtherFunct3Illegal 0x13 [0#3]

/-! ## Memory, loads and stores -/

/-- R43, R44, R45: MemRead, IMemRead and MemWrite: little-endian, no alignment, OutOfRange exactly where the four
bytes do not fit over unbounded integers, no byte but the four changed, nothing written on failure, neither memory
nor, by lw, the destination register; only sw changes data memory. -/
def Obligations.MemoryPrimitivesAreLittleEndian : Prop :=
  (∀ (s : State) (a : Word), a.toNat + 4 ≤ s.dmem.size →
    ∃ b0 b1 b2 b3, FourBytes s .dmem a.toNat b0 b1 b2 b3 ∧ memRead s a = .ok (b3 ++ b2 ++ b1 ++ b0)) ∧
  (∀ (s : State) (a : Word), s.dmem.size < a.toNat + 4 → memRead s a = .error (.outOfRange .dmem a)) ∧
  (∀ s : State, s.pc.toNat + 4 ≤ s.imem.size →
    ∃ b0 b1 b2 b3, FourBytes s .imem s.pc.toNat b0 b1 b2 b3 ∧ fetch s = .ok (b3 ++ b2 ++ b1 ++ b0)) ∧
  (∀ s : State, s.imem.size < s.pc.toNat + 4 → fetch s = .error (.outOfRange .imem s.pc)) ∧
  (∀ (s : State) (a v : Word), s.dmem.wf = true → a.toNat + 4 ≤ s.dmem.size →
    ∃ t, memWrite s a v = .ok t ∧
      FourBytes t .dmem a.toNat (v.extractLsb' 0 8) (v.extractLsb' 8 8) (v.extractLsb' 16 8) (v.extractLsb' 24 8) ∧
      (∀ b, (b < a.toNat ∨ a.toNat + 4 ≤ b) → readByte t .dmem b = readByte s .dmem b) ∧
      (∀ b, readByte t .imem b = readByte s .imem b) ∧ SameRegs s t ∧ t.pc = s.pc ∧ SameControl s t) ∧
  (∀ (s : State) (a v : Word), s.dmem.size < a.toNat + 4 → memWrite s a v = .error (.outOfRange .dmem a)) ∧
  (∀ (s : State) (r rs1 : Reg) (imm : BitVec 12), s.dmem.size < (effectiveAddress s rs1 imm).toNat + 4 →
    Latches (.lw r rs1 imm) s (.outOfRange .dmem (effectiveAddress s rs1 imm)) ∧
    Latches (.sw r rs1 imm) s (.outOfRange .dmem (effectiveAddress s rs1 imm))) ∧
  (∀ (i : Instr) (s t : State), exec i s = .next t → (∀ rs2 rs1 imm, i ≠ .sw rs2 rs1 imm) →
    ∀ a, readByte t .dmem a = readByte s .dmem a)

/-- R94: what a store wrote, a load at the same address returns, at every alignment. -/
def Obligations.StoreThenLoadReturnsTheWord : Prop :=
  ∀ (s : State) (ea v : Word), s.dmem.wf = true → ea.toNat + 4 ≤ s.dmem.size →
    ∃ t, memWrite s ea v = .ok t ∧ memRead t ea = .ok v

/-- The effective address is x[rs1] plus the signed displacement, as integers, modulo 2^32. -/
def Obligations.EffectiveAddressWraps : Prop :=
  ∀ (s : State) (rs1 : Reg) (imm : BitVec 12),
    ((effectiveAddress s rs1 imm).toNat : Int) = (((readReg s rs1).toNat : Int) + imm.toInt) % 2 ^ 32

/-- R92: lw completes with the four bytes at the effective address in rd, at every alignment, and its frame; where they
do not fit it latches OutOfRange(DMEM, ea) and changes nothing else, rd = x0 included; its diagnostic. -/
def Obligations.LwResult : Prop :=
  (∀ (s : State) (rd rs1 : Reg) (imm : BitVec 12),
    ((effectiveAddress s rs1 imm).toNat + 4 ≤ s.dmem.size →
      ∃ b0 b1 b2 b3, FourBytes s .dmem (effectiveAddress s rs1 imm).toNat b0 b1 b2 b3 ∧
        Writes (.lw rd rs1 imm) s rd (b3 ++ b2 ++ b1 ++ b0) (s.pc + 4)) ∧
    (s.dmem.size < (effectiveAddress s rs1 imm).toNat + 4 →
      Latches (.lw rd rs1 imm) s (.outOfRange .dmem (effectiveAddress s rs1 imm))) ∧
    instrDiagnostic (.lw rd rs1 imm) s =
      if s.config.warnUnaligned = true ∧ (effectiveAddress s rs1 imm).toNat % 4 ≠ 0
      then some ⟨.load, effectiveAddress s rs1 imm⟩ else none) ∧
  Row 0x0000707F 0x00002003 (fun w => .lw (w.extractLsb' 7 5) (w.extractLsb' 15 5) (w.extractLsb' 20 12)) ∧
  OtherFunct3Illegal 0x03 [2#3]

/-- R93: sw completes with the bytes of x[rs2] at the effective address, every other byte, every register and
instruction memory as before; where they do not fit it latches OutOfRange(DMEM, ea) and writes nothing; its
diagnostic. -/
def Obligations.SwResult : Prop :=
  (∀ (s : State) (rs2 rs1 : Reg) (imm : BitVec 12), s.dmem.wf = true →
    (effectiveAddress s rs1 imm).toNat + 4 ≤ s.dmem.size →
    ∃ t, exec (.sw rs2 rs1 imm) s = .next t ∧
      FourBytes t .dmem (effectiveAddress s rs1 imm).toNat ((readReg s rs2).extractLsb' 0 8)
        ((readReg s rs2).extractLsb' 8 8) ((readReg s rs2).extractLsb' 16 8) ((readReg s rs2).extractLsb' 24 8) ∧
      (∀ b, (b < (effectiveAddress s rs1 imm).toNat ∨ (effectiveAddress s rs1 imm).toNat + 4 ≤ b) →
        readByte t .dmem b = readByte s .dmem b) ∧
      (∀ b, readByte t .imem b = readByte s .imem b) ∧ SameRegs s t ∧ t.pc = s.pc + 4 ∧ SameControl s t) ∧
  (∀ (s : State) (rs2 rs1 : Reg) (imm : BitVec 12),
    s.dmem.size < (effectiveAddress s rs1 imm).toNat + 4 →
    Latches (.sw rs2 rs1 imm) s (.outOfRange .dmem (effectiveAddress s rs1 imm))) ∧
  (∀ (s : State) (rs2 rs1 : Reg) (imm : BitVec 12),
    instrDiagnostic (.sw rs2 rs1 imm) s =
      if s.config.warnUnaligned = true ∧ (effectiveAddress s rs1 imm).toNat % 4 ≠ 0
      then some ⟨.store, effectiveAddress s rs1 imm⟩ else none) ∧
  Row 0x0000707F 0x00002023 (fun w => .sw (w.extractLsb' 20 5) (w.extractLsb' 15 5)
    (w.extractLsb' 25 7 ++ w.extractLsb' 7 5)) ∧
  OtherFunct3Illegal 0x23 [2#3]

/-- R110: a step emits the diagnostic exactly when it runs an lw or sw whose effective address is no multiple of 4 and
WARN_UNALIGNED is true, whether or not the access then fits: if it does the step completes, else it raises
OutOfRange. WARN_UNALIGNED changes nothing else. -/
def Obligations.DiagnosticExactlyOnUnalignedAccess : Prop :=
  (∀ (s : State) (d : Diagnostic), stepDiagnostic s = some d ↔
    MayStep s ∧ s.config.warnUnaligned = true ∧ d.addr.toNat % 4 ≠ 0 ∧
      ∃ w, fetch s = .ok w ∧
        ((∃ rd rs1 imm, dispatch s.config w = .execute (.lw rd rs1 imm) ∧ d = ⟨.load, effectiveAddress s rs1 imm⟩) ∨
         (∃ rs2 rs1 imm, dispatch s.config w = .execute (.sw rs2 rs1 imm) ∧
           d = ⟨.store, effectiveAddress s rs1 imm⟩))) ∧
  (∀ (s : State) (d : Diagnostic), stepDiagnostic s = some d →
    (d.addr.toNat + 4 ≤ s.dmem.size → outcomeOf (step s) = .continued (s.pc + 4)) ∧
    (s.dmem.size < d.addr.toNat + 4 → outcomeOf (step s) = .fault (.outOfRange .dmem d.addr))) ∧
  (∀ (s : State) (warn : Bool), step (withSwitches warn s.config.trace s) =
    mapState (withSwitches warn s.config.trace) (step s))

/-! ## Control transfer and upper immediates -/

/-- R98, R99: beq and bne complete at pc + imm_B where the registers' patterns are equal, or differ, and at pc + 4
otherwise; no register or memory is written; every word of their rows is them, and every other funct3 is illegal. -/
def Obligations.BranchResults : Prop :=
  (∀ (s : State) (rs1 rs2 : Reg) (off : BitVec 13),
    Moves (.beq rs1 rs2 off) s (if readReg s rs1 = readReg s rs2 then s.pc + off.signExtend 32 else s.pc + 4) ∧
    Moves (.bne rs1 rs2 off) s (if readReg s rs1 = readReg s rs2 then s.pc + 4 else s.pc + off.signExtend 32)) ∧
  Row 0x0000707F 0x00000063 (fun w => .beq (w.extractLsb' 15 5) (w.extractLsb' 20 5)
    (w.extractLsb' 31 1 ++ w.extractLsb' 7 1 ++ w.extractLsb' 25 6 ++ w.extractLsb' 8 4 ++ 0#1)) ∧
  Row 0x0000707F 0x00001063 (fun w => .bne (w.extractLsb' 15 5) (w.extractLsb' 20 5)
    (w.extractLsb' 31 1 ++ w.extractLsb' 7 1 ++ w.extractLsb' 25 6 ++ w.extractLsb' 8 4 ++ 0#1)) ∧
  OtherFunct3Illegal 0x63 [0#3, 1#3]

/-- R100: jal links pc + 4 in rd and continues at pc + imm_J, with its frame, unless rd = 0 and the offset is 0, which
halts; every word of its row but the halt word is it. -/
def Obligations.JalResult : Prop :=
  (∀ (s : State) (rd : Reg) (off : BitVec 21), ¬ (rd = 0 ∧ off = 0) →
    Writes (.jal rd off) s rd (s.pc + 4) (s.pc + off.signExtend 32)) ∧
  (∀ s : State, Halts (.jal 0 0) s) ∧
  (∀ w : Word, w &&& 0x0000007F = 0x0000006F → w ≠ 0x0000006F →
    decode w = .instr (.jal (w.extractLsb' 7 5)
      (w.extractLsb' 31 1 ++ w.extractLsb' 12 8 ++ w.extractLsb' 20 1 ++ w.extractLsb' 21 10 ++ 0#1)))

/-- The halt word, and no other word, halts the engine: run_state Halted, outcome Halt, no register or memory written;
after it there is no step. (The pc after Halt is not read: R127.) -/
def Obligations.HaltWordHalts : Prop :=
  (∀ s : State, Halts .halt s) ∧
  (∀ w : Word, decode w = .instr .halt ↔ w = 0x0000006F) ∧
  (∀ s : State, MayStep s → fetch s = .ok 0x0000006F →
    ∃ t, step s = .next t ∧ t.runState = .halted ∧ SameRegs s t ∧ SameBytes s t ∧ outcomeOf (step s) = .halt ∧
      step t = .next t) ∧
  (∀ s t : State, MayStep s → step s = .next t → t.runState = .halted → fetch s = .ok 0x0000006F)

/-- R102: jalr links pc + 4 in rd and continues at x[rs1] + imm_I, read before the link, with bit 0 cleared, with its
frame; every word of its row is it, and another funct3 is left to the policy. -/
def Obligations.JalrResult : Prop :=
  (∀ (s : State) (rd rs1 : Reg) (imm : BitVec 12),
    Writes (.jalr rd rs1 imm) s rd (s.pc + 4)
      (BitVec.ofNat 32 ((readReg s rs1 + imm.signExtend 32).toNat / 2 * 2))) ∧
  Row 0x0000707F 0x00000067 (fun w => .jalr (w.extractLsb' 7 5) (w.extractLsb' 15 5) (w.extractLsb' 20 12)) ∧
  (∀ w : Word, JalrUnsettled w → ∀ c : Config, dispatch c w = match c.jalrPolicy with
    | .ignore => .execute (.jalr (w.extractLsb' 7 5) (w.extractLsb' 15 5) (w.extractLsb' 20 12))
    | .illegal => .illegal
    | .refuse => .refuse)

/-- R104, R105: lui completes with imm_U, auipc with pc + imm_U modulo 2^32, and their frame; every word with their
opcode is them. -/
def Obligations.UpperImmediateResults : Prop :=
  (∀ (s : State) (rd : Reg) (imm : BitVec 20),
    Writes (.lui rd imm) s rd (BitVec.ofNat 32 (imm.toNat * 4096)) (s.pc + 4) ∧
    Writes (.auipc rd imm) s rd (BitVec.ofNat 32 (s.pc.toNat + imm.toNat * 4096)) (s.pc + 4)) ∧
  Row 0x0000007F 0x00000037 (fun w => .lui (w.extractLsb' 7 5) (w.extractLsb' 12 20)) ∧
  Row 0x0000007F 0x00000017 (fun w => .auipc (w.extractLsb' 7 5) (w.extractLsb' 12 20))

/-! ## The step -/

/-- When the four bytes at the pc decode to an instruction, it is well formed and a step is `exec` of it, on the state
whose loader interface the step has closed (log 12). -/
def Obligations.StepRunsTheDecodedInstruction : Prop :=
  ∀ (s : State) (b0 b1 b2 b3 : Byte) (i : Instr), MayStep s → FourBytes s .imem s.pc.toNat b0 b1 b2 b3 →
    decodeBytes [b0, b1, b2, b3] = .ok (i, []) →
    i.wellFormed = true ∧ step s = exec i { s with loaderOpen := false }

/-- R50: fetch reads the four bytes at any pc, aligned or not; where they do not fit the step latches
OutOfRange(IMEM, pc) and changes no register, pc, byte or run state. No step of an instruction other than lw and sw
emits a diagnostic, whatever its pc. -/
def Obligations.FetchReadsFourBytesOrFaults : Prop :=
  (∀ s : State, s.pc.toNat + 4 ≤ s.imem.size →
    ∃ b0 b1 b2 b3, FourBytes s .imem s.pc.toNat b0 b1 b2 b3 ∧ fetch s = .ok (b3 ++ b2 ++ b1 ++ b0)) ∧
  (∀ s : State, MayStep s → s.imem.size < s.pc.toNat + 4 →
    ∃ t, step s = .next t ∧ t.fault = some (.outOfRange .imem s.pc) ∧ SameRegs s t ∧ t.pc = s.pc ∧ SameBytes s t ∧
      t.runState = .running ∧ t.config = s.config ∧ stepDiagnostic s = none ∧
      outcomeOf (step s) = .fault (.outOfRange .imem s.pc)) ∧
  (∀ (s : State) (w : Word) (i : Instr), fetch s = .ok w → dispatch s.config w = .execute i →
    (∀ a b c, i ≠ .lw a b c ∧ i ≠ .sw a b c) → stepDiagnostic s = none)

/-- R107: an IllegalInstruction step sets run_state to Illegal(pc, word), reports it, and changes no register, byte or
pc; it is terminal. -/
def Obligations.IllegalStepIsTerminal : Prop :=
  ∀ (s : State) (w : Word), MayStep s → fetch s = .ok w → dispatch s.config w = .illegal →
    StepIsIllegal s w ∧ ∀ t, step s = .next t → step t = .next t ∧ outcomeOf (step t) = .illegal s.pc w

/-- R28: without a Running run state, with a latched fault or with a Refused mark there is no step: nothing changes,
and the terminal outcome is reported again. -/
def Obligations.TerminalStatesHaveNoStep : Prop :=
  ∀ s : State, ¬ MayStep s →
    (∀ t, step s = .next t → t = s) ∧ coreAfter s (step s) = s ∧ stepDiagnostic s = none ∧
    (s.refusedMark = none → outcomeOf (step s) = stateOutcome s) ∧
    (∀ m, s.refusedMark = some m → step s = .refused (.unsettledWord m.pc m.word))

/-- A step that raises sets the fault, reports it on the failure channel, and leaves every register, byte, the pc, the
run state and the configuration unchanged; nothing clears a latched fault. (That the step also closes the loader
interface is the model's: log 12.) -/
def Obligations.FaultingStepChangesNothingElse : Prop :=
  (∀ (s t : State) (f : Fault), MayStep s → step s = .next t → t.fault = some f →
    SameRegs s t ∧ t.pc = s.pc ∧ t.imem = s.imem ∧ t.dmem = s.dmem ∧ t.runState = .running ∧ t.refusedMark = none ∧
      t.config = s.config ∧ outcomeOf (step s) = .fault f ∧ step t = .fault f) ∧
  (∀ (s : State) (f : Fault), s.fault = some f → (coreAfter s (step s)).fault = some f)

/-- R111: a step reports exactly one outcome, in this order: the fetch fault; the verdict on the word; Halt; the data
fault of lw or sw; Continue. -/
def Obligations.StepOutcomesHaveThePriority : Prop :=
  ∀ s : State, MayStep s →
    (s.imem.size < s.pc.toNat + 4 → outcomeOf (step s) = .fault (.outOfRange .imem s.pc)) ∧
    (∀ w, fetch s = .ok w →
      (dispatch s.config w = .illegal → outcomeOf (step s) = .illegal s.pc w) ∧
      (dispatch s.config w = .refuse → outcomeOf (step s) = .refused (.unsettledWord s.pc w)) ∧
      (dispatch s.config w = .execute .halt → outcomeOf (step s) = .halt) ∧
      (∀ rd rs1 imm, dispatch s.config w = .execute (.lw rd rs1 imm) ∨ dispatch s.config w = .execute (.sw rd rs1 imm) →
        s.dmem.size < (effectiveAddress s rs1 imm).toNat + 4 →
        outcomeOf (step s) = .fault (.outOfRange .dmem (effectiveAddress s rs1 imm))) ∧
      (∀ i, dispatch s.config w = .execute i → i ≠ .halt →
        (∀ rd rs1 imm, i = .lw rd rs1 imm ∨ i = .sw rd rs1 imm →
          (effectiveAddress s rs1 imm).toNat + 4 ≤ s.dmem.size) →
        ∃ next, outcomeOf (step s) = .continued next))

/-- R58: no step, and so no run, changes a byte of instruction memory: fetch always sees the loaded program. -/
def Obligations.InstructionMemoryNeverChanges : Prop :=
  (∀ (s t : State), step s = .next t → ∀ a, readByte t .imem a = readByte s .imem a) ∧
  (∀ (n : Nat) (h : Harness) (a : Nat), readByte (run n h).2.core .imem a = readByte h.core .imem a)

/-- Data memory changes only in a step whose word is sw, and then only in the four bytes at its effective address. -/
def Obligations.OnlySwChangesDataMemory : Prop :=
  ∀ (s t : State) (a : Nat), step s = .next t → readByte t .dmem a ≠ readByte s .dmem a →
    ∃ w rs2 rs1 imm, fetch s = .ok w ∧ decode w = .instr (.sw rs2 rs1 imm) ∧
      (effectiveAddress s rs1 imm).toNat ≤ a ∧ a < (effectiveAddress s rs1 imm).toNat + 4

/-- A step changes at most one register, the one its word's rd field names, and none where the fetch faults. -/
def Obligations.StepWritesAtMostRd : Prop :=
  ∀ s t : State, step s = .next t →
    (∀ w, fetch s = .ok w → ∀ r, r ≠ w.extractLsb' 7 5 → readReg t r = readReg s r) ∧
    ((∃ f, fetch s = .error f) → SameRegs s t)

/-- R31: the configuration and the capacities are those of construction and no step changes them; WARN_UNALIGNED and
TRACE change no answer of a step but the two switches themselves. -/
def Obligations.ConfigurationIsFixedAndSwitchesAreInert : Prop :=
  (∀ p : Params, (State.launch p).config = p.config ∧ (State.launch p).imem.size = p.imemSize ∧
    (State.launch p).dmem.size = p.dmemSize) ∧
  (∀ s t : State, step s = .next t → t.config = s.config ∧ t.imem.size = s.imem.size ∧ t.dmem.size = s.dmem.size) ∧
  (∀ (s : State) (warn trace : Bool), step (withSwitches warn trace s) = mapState (withSwitches warn trace) (step s))

/-- R15, R16: the register-file block for any index: InvalidRegister above 31, 0 at index 0, a write read back at every
other index, no other register and no other state changed. The reads and writes of instructions are its own. -/
def Obligations.RegisterFileReadsAndWrites : Prop :=
  ∀ (s : State) (k : Nat) (v : Word),
    (32 ≤ k → readIndex s k = .error (.invalidRegister k) ∧ writeIndex s k v = .error (.invalidRegister k)) ∧
    readIndex s 0 = .ok 0 ∧
    (∀ r : Reg, readIndex s r.toNat = .ok (readReg s r) ∧ writeIndex s r.toNat v = .ok (writeReg s r v)) ∧
    (k < 32 → ∃ t, writeIndex s k v = .ok t ∧ (k = 0 → t = s) ∧ (k ≠ 0 → readIndex t k = .ok v) ∧
      (∀ j, j ≠ k → readIndex t j = readIndex s j) ∧ t.pc = s.pc ∧ SameBytes s t ∧ SameControl s t)

/-- No step latches InvalidRegister. -/
def Obligations.NoStepRaisesInvalidRegister : Prop :=
  ∀ (s t : State) (k : Nat), MayStep s → step s = .next t → t.fault ≠ some (.invalidRegister k)

/-! ## Reset, loader, run driver, ports -/

/-- The state after reset (R122), by construction or by the rst port, for every construction argument. The model's own
choices here: that a cycle with rst high together with another request answers rst alone (log 21, R39 is silent), and
the launch contents as sparse lists, in which an unlisted byte is 0 (log 26). -/
def Obligations.ResetState : Prop :=
  ∀ p : Params,
    (State.launch p).pc = 0 ∧ (State.launch p).runState = .running ∧ (State.launch p).fault = none ∧
    (State.launch p).refusedMark = none ∧ (State.launch p).loaderOpen = true ∧
    (State.launch p).config = p.config ∧
    readReg (State.launch p) 0 = 0 ∧
    (∀ (k : Nat) (h : k < 31), readReg (State.launch p) (BitVec.ofNat 5 (k + 1)) = p.regInit[k]) ∧
    (∀ a, readByte (State.launch p) .imem a = if a < p.imemSize then some (launchByte p.imemInit a) else none) ∧
    (∀ a, readByte (State.launch p) .dmem a = if a < p.dmemSize then some (launchByte p.dmemInit a) else none) ∧
    (∀ program t, loadProgram (State.launch p) program = .ok t →
      (∀ k w, program[k]? = some w → FourBytes t .imem (k * 4) (w.extractLsb' 0 8) (w.extractLsb' 8 8)
        (w.extractLsb' 16 8) (w.extractLsb' 24 8)) ∧
      (∀ a, program.length * 4 ≤ a → readByte t .imem a = readByte (State.launch p) .imem a)) ∧
    (Harness.launch p).stepCount = 0 ∧ (Harness.launch p).core = State.launch p ∧
    (∀ inp s, inp.rst = true → ∃ out, cycle p inp s = .ok (State.launch p, out))

/-- The state the model resets to meets the invariant (its construction arguments are the model's: logs 3 to 7). -/
def Obligations.ResetMeetsTheInvariant : Prop := State.reset.Inv

/-- Every core the spec allows to be constructed meets the invariant, and still does when a program is loaded. -/
def Obligations.LaunchAndLoadMeetTheInvariant : Prop :=
  ∀ (p : Params), p.valid = true → (State.launch p).Inv ∧
    ∀ program t, loadProgram (State.launch p) program = .ok t → t.Inv

/-- Every step keeps the invariant: memories canonical and bounded, the pc even until Halt, and what a terminal state
records true of the machine. -/
def Obligations.StepKeepsTheInvariant : Prop := ∀ s t : State, s.Inv → step s = .next t → t.Inv

/-- Every run keeps the invariant. -/
def Obligations.RunKeepsTheInvariant : Prop := ∀ (n : Nat) (h : Harness), h.core.Inv → (run n h).2.core.Inv

/-- Memories in canonical form with the same bytes at every address are the same data. -/
def Obligations.CanonicalMemoriesAreDeterminedByTheirBytes : Prop :=
  ∀ m n : Memory, m.wf = true → n.wf = true → (∀ a, m.byte? a = n.byte? a) → m.cells = n.cells ∧ m.size = n.size

/-- A loader write stores its word little-endian at index*4 of instruction memory and changes nothing else; one that
does not fit is OutOfRange; after the first step every write is refused. A program's words go to successive addresses
from 0, and no instruction changes instruction memory (R36, R46, R129). The model's own choices here: that a step
taken closes the interface whatever its outcome, a fault, IllegalInstruction or Refused (log 12), and that the address
of the loader's OutOfRange is the unbounded product (log 24). -/
def Obligations.LoaderWritesBeforeTheFirstStepOnly : Prop :=
  (∀ (s : State) (k : Nat) (v : Word), s.imem.wf = true → s.loaderOpen = true → k * 4 + 4 ≤ s.imem.size →
    ∃ t, writeWordAtIndex s k v = .ok t ∧
      FourBytes t .imem (k * 4) (v.extractLsb' 0 8) (v.extractLsb' 8 8) (v.extractLsb' 16 8) (v.extractLsb' 24 8) ∧
      (∀ b, (b < k * 4 ∨ k * 4 + 4 ≤ b) → readByte t .imem b = readByte s .imem b) ∧
      (∀ b, readByte t .dmem b = readByte s .dmem b) ∧ SameRegs s t ∧ t.pc = s.pc ∧ SameControl s t) ∧
  (∀ (s : State) (k : Nat) (v : Word), s.loaderOpen = true → s.imem.size < k * 4 + 4 →
    writeWordAtIndex s k v = .error (.outOfRange (k * 4))) ∧
  (∀ (s t : State) (k : Nat) (v : Word), MayStep s → step s = .next t → writeWordAtIndex t k v = .error .refused) ∧
  (∀ s t : State, s.loaderOpen = false → step s = .next t → t.loaderOpen = false) ∧
  (∀ (s : State) (k : Nat) (v : Word), MayStep s ∨ s.loaderOpen = false →
    writeWordAtIndex (coreAfter s (step s)) k v = .error .refused) ∧
  (∀ (s t : State) (program : List Word), s.imem.wf = true → loadProgram s program = .ok t →
    ∀ k w, program[k]? = some w → FourBytes t .imem (k * 4) (w.extractLsb' 0 8) (w.extractLsb' 8 8)
      (w.extractLsb' 16 8) (w.extractLsb' 24 8)) ∧
  (∀ (i : Instr) (s t : State), exec i s = .next t → ∀ a, readByte t .imem a = readByte s .imem a)

/-- R125: a program that fits, loaded into a constructed core, gives the launch premise; one that does not fit stops
the loader with OutOfRange at the first word that does not (its address as an unbounded number: log 24). -/
def Obligations.LoadingGivesCleanLaunch : Prop :=
  (∀ (p : Params) (program : List Word), program.length * 4 ≤ p.imemSize →
    ∃ t, loadProgram (State.launch p) program = .ok t ∧ CleanLaunch program ⟨t, 0, []⟩) ∧
  (∀ (p : Params) (program : List Word), p.imemSize < program.length * 4 →
    loadProgram (State.launch p) program = .error (.outOfRange (p.imemSize / 4 * 4)))

/-- R126: the driver makes at most MAX_STEPS calls and stops at the first that is not Continue, with that outcome, the
last call included; if all continue it reports StepLimitExceeded(MAX_STEPS), at once for MAX_STEPS = 0, and leaves the
engine Running. -/
def Obligations.RunStopsAtTheFirstNonContinue : Prop :=
  ∀ (n : Nat) (h : Harness),
    (∃ k e, k < n ∧ (∀ j, j < k → callEnd (Harness.call^[j] h) = none) ∧
      callEnd (Harness.call^[k] h) = some e ∧ run n h = (e, Harness.call^[k + 1] h)) ∨
    ((∀ j, j < n → callEnd (Harness.call^[j] h) = none) ∧
      run n h = (.stepLimitExceeded n, Harness.call^[n] h) ∧
      (Harness.call^[n] h).stepCount = h.stepCount + n ∧
      (0 < n → MayStep (Harness.call^[n] h).core))

/-- How a run ended is what its final state says: Halted, Illegal, faulted or marked Refused, or still able to step. -/
def Obligations.RunEndIsTheFinalState : Prop :=
  ∀ (n : Nat) (h : Harness), 0 < n →
    match (run n h).1 with
    | .halted => (run n h).2.core.runState = .halted
    | .illegal pc w => (run n h).2.core.runState = .illegal pc w
    | .faulted f => (run n h).2.core.fault = some f
    | .refused r => ∃ pc w, r = .unsettledWord pc w ∧ (run n h).2.core.refusedMark = some ⟨pc, w⟩
    | .stepLimitExceeded k => k = n ∧ MayStep (run n h).2.core

/-- A cycle with step_req answers step_done and the outcome's code, and refuses a loader write in the same cycle; in a
terminal state it changes nothing and answers with the ports of the outcome that made it terminal. R39: "The port-level
framing below is the spec's own choice, because SRC has no ports or clocks." Of the ports R39 calls not valid for that
outcome the equality is the model's choice: they are none (log 21). -/
def Obligations.StepPortsRepeatTheTerminalOutcome : Prop :=
  ∀ (p : Params) (inp : PortIn) (s t : State) (out : PortOut), inp.rst = false → inp.stepReq = true →
    cycle p inp s = .ok (t, out) →
    out.stepDone = true ∧ out.outcome = outcomeCode (outcomeOf (step s)) ∧ out.ldErr = inp.ldWe ∧ t.imem = s.imem ∧
    (¬ MayStep t → ∃ out', cycle p inp t = .ok (t, out') ∧ out'.stepDone = true ∧ out'.outcome = out.outcome ∧
      out'.faultKind = out.faultKind ∧ out'.faultSpace = out.faultSpace ∧ out'.faultAddr = out.faultAddr ∧
      out'.illegalPc = out.illegalPc ∧ out'.illegalWord = out.illegalWord ∧ out'.nextPc = out.nextPc ∧
      out'.warnValid = false)
end

