-- ==== Sys2Proof/Laws/Decode.lean ====
section
/-! SUPPORT. The encoder and the decoder, field by field (R63 to R70): each field of an encoded word is the operand it
was made of, each word is its fields put together, and what each verdict of the dispatch table says. -/

namespace Sys2Proof

/-! ### The fields of an encoded word -/

@[simp] theorem opcodeOf_encodeR (f7 : BitVec 7) (rs2 rs1 : Reg) (f3 : BitVec 3) (rd : Reg) (op : BitVec 7) :
    opcodeOf (encodeR f7 rs2 rs1 f3 rd op) = op := by
  apply BitVec.eq_of_getLsbD_eq
  intro i hi
  simp only [opcodeOf, encodeR, BitVec.getLsbD_append, BitVec.getLsbD_extractLsb']
  interval_cases i <;> simp

@[simp] theorem rdOf_encodeR (f7 : BitVec 7) (rs2 rs1 : Reg) (f3 : BitVec 3) (rd : Reg) (op : BitVec 7) :
    rdOf (encodeR f7 rs2 rs1 f3 rd op) = rd := by
  apply BitVec.eq_of_getLsbD_eq
  intro i hi
  simp only [rdOf, encodeR, BitVec.getLsbD_append, BitVec.getLsbD_extractLsb']
  interval_cases i <;> simp

@[simp] theorem funct3Of_encodeR (f7 : BitVec 7) (rs2 rs1 : Reg) (f3 : BitVec 3) (rd : Reg) (op : BitVec 7) :
    funct3Of (encodeR f7 rs2 rs1 f3 rd op) = f3 := by
  apply BitVec.eq_of_getLsbD_eq
  intro i hi
  simp only [funct3Of, encodeR, BitVec.getLsbD_append, BitVec.getLsbD_extractLsb']
  interval_cases i <;> simp

@[simp] theorem rs1Of_encodeR (f7 : BitVec 7) (rs2 rs1 : Reg) (f3 : BitVec 3) (rd : Reg) (op : BitVec 7) :
    rs1Of (encodeR f7 rs2 rs1 f3 rd op) = rs1 := by
  apply BitVec.eq_of_getLsbD_eq
  intro i hi
  simp only [rs1Of, encodeR, BitVec.getLsbD_append, BitVec.getLsbD_extractLsb']
  interval_cases i <;> simp

@[simp] theorem rs2Of_encodeR (f7 : BitVec 7) (rs2 rs1 : Reg) (f3 : BitVec 3) (rd : Reg) (op : BitVec 7) :
    rs2Of (encodeR f7 rs2 rs1 f3 rd op) = rs2 := by
  apply BitVec.eq_of_getLsbD_eq
  intro i hi
  simp only [rs2Of, encodeR, BitVec.getLsbD_append, BitVec.getLsbD_extractLsb']
  interval_cases i <;> simp

@[simp] theorem funct7Of_encodeR (f7 : BitVec 7) (rs2 rs1 : Reg) (f3 : BitVec 3) (rd : Reg) (op : BitVec 7) :
    funct7Of (encodeR f7 rs2 rs1 f3 rd op) = f7 := by
  apply BitVec.eq_of_getLsbD_eq
  intro i hi
  simp only [funct7Of, encodeR, BitVec.getLsbD_append, BitVec.getLsbD_extractLsb']
  interval_cases i <;> simp

@[simp] theorem opcodeOf_encodeI (imm : BitVec 12) (rs1 : Reg) (f3 : BitVec 3) (rd : Reg) (op : BitVec 7) :
    opcodeOf (encodeI imm rs1 f3 rd op) = op := by
  apply BitVec.eq_of_getLsbD_eq
  intro i hi
  simp only [opcodeOf, encodeI, BitVec.getLsbD_append, BitVec.getLsbD_extractLsb']
  interval_cases i <;> simp

@[simp] theorem rdOf_encodeI (imm : BitVec 12) (rs1 : Reg) (f3 : BitVec 3) (rd : Reg) (op : BitVec 7) :
    rdOf (encodeI imm rs1 f3 rd op) = rd := by
  apply BitVec.eq_of_getLsbD_eq
  intro i hi
  simp only [rdOf, encodeI, BitVec.getLsbD_append, BitVec.getLsbD_extractLsb']
  interval_cases i <;> simp

@[simp] theorem funct3Of_encodeI (imm : BitVec 12) (rs1 : Reg) (f3 : BitVec 3) (rd : Reg) (op : BitVec 7) :
    funct3Of (encodeI imm rs1 f3 rd op) = f3 := by
  apply BitVec.eq_of_getLsbD_eq
  intro i hi
  simp only [funct3Of, encodeI, BitVec.getLsbD_append, BitVec.getLsbD_extractLsb']
  interval_cases i <;> simp

@[simp] theorem rs1Of_encodeI (imm : BitVec 12) (rs1 : Reg) (f3 : BitVec 3) (rd : Reg) (op : BitVec 7) :
    rs1Of (encodeI imm rs1 f3 rd op) = rs1 := by
  apply BitVec.eq_of_getLsbD_eq
  intro i hi
  simp only [rs1Of, encodeI, BitVec.getLsbD_append, BitVec.getLsbD_extractLsb']
  interval_cases i <;> simp

@[simp] theorem immIOf_encodeI (imm : BitVec 12) (rs1 : Reg) (f3 : BitVec 3) (rd : Reg) (op : BitVec 7) :
    immIOf (encodeI imm rs1 f3 rd op) = imm := by
  apply BitVec.eq_of_getLsbD_eq
  intro i hi
  simp only [immIOf, encodeI, BitVec.getLsbD_append, BitVec.getLsbD_extractLsb']
  interval_cases i <;> simp

@[simp] theorem opcodeOf_encodeS (imm : BitVec 12) (rs2 rs1 : Reg) (f3 : BitVec 3) (op : BitVec 7) :
    opcodeOf (encodeS imm rs2 rs1 f3 op) = op := by
  apply BitVec.eq_of_getLsbD_eq
  intro i hi
  simp only [opcodeOf, encodeS, BitVec.getLsbD_append, BitVec.getLsbD_extractLsb']
  interval_cases i <;> simp

@[simp] theorem funct3Of_encodeS (imm : BitVec 12) (rs2 rs1 : Reg) (f3 : BitVec 3) (op : BitVec 7) :
    funct3Of (encodeS imm rs2 rs1 f3 op) = f3 := by
  apply BitVec.eq_of_getLsbD_eq
  intro i hi
  simp only [funct3Of, encodeS, BitVec.getLsbD_append, BitVec.getLsbD_extractLsb']
  interval_cases i <;> simp

@[simp] theorem rs1Of_encodeS (imm : BitVec 12) (rs2 rs1 : Reg) (f3 : BitVec 3) (op : BitVec 7) :
    rs1Of (encodeS imm rs2 rs1 f3 op) = rs1 := by
  apply BitVec.eq_of_getLsbD_eq
  intro i hi
  simp only [rs1Of, encodeS, BitVec.getLsbD_append, BitVec.getLsbD_extractLsb']
  interval_cases i <;> simp

@[simp] theorem rs2Of_encodeS (imm : BitVec 12) (rs2 rs1 : Reg) (f3 : BitVec 3) (op : BitVec 7) :
    rs2Of (encodeS imm rs2 rs1 f3 op) = rs2 := by
  apply BitVec.eq_of_getLsbD_eq
  intro i hi
  simp only [rs2Of, encodeS, BitVec.getLsbD_append, BitVec.getLsbD_extractLsb']
  interval_cases i <;> simp

@[simp] theorem immSOf_encodeS (imm : BitVec 12) (rs2 rs1 : Reg) (f3 : BitVec 3) (op : BitVec 7) :
    immSOf (encodeS imm rs2 rs1 f3 op) = imm := by
  apply BitVec.eq_of_getLsbD_eq
  intro i hi
  simp only [immSOf, encodeS, BitVec.getLsbD_append, BitVec.getLsbD_extractLsb']
  interval_cases i <;> simp

@[simp] theorem opcodeOf_encodeB (off : BitVec 13) (rs2 rs1 : Reg) (f3 : BitVec 3) (op : BitVec 7) :
    opcodeOf (encodeB off rs2 rs1 f3 op) = op := by
  apply BitVec.eq_of_getLsbD_eq
  intro i hi
  simp only [opcodeOf, encodeB, BitVec.getLsbD_append, BitVec.getLsbD_extractLsb']
  interval_cases i <;> simp

@[simp] theorem funct3Of_encodeB (off : BitVec 13) (rs2 rs1 : Reg) (f3 : BitVec 3) (op : BitVec 7) :
    funct3Of (encodeB off rs2 rs1 f3 op) = f3 := by
  apply BitVec.eq_of_getLsbD_eq
  intro i hi
  simp only [funct3Of, encodeB, BitVec.getLsbD_append, BitVec.getLsbD_extractLsb']
  interval_cases i <;> simp

@[simp] theorem rs1Of_encodeB (off : BitVec 13) (rs2 rs1 : Reg) (f3 : BitVec 3) (op : BitVec 7) :
    rs1Of (encodeB off rs2 rs1 f3 op) = rs1 := by
  apply BitVec.eq_of_getLsbD_eq
  intro i hi
  simp only [rs1Of, encodeB, BitVec.getLsbD_append, BitVec.getLsbD_extractLsb']
  interval_cases i <;> simp

@[simp] theorem rs2Of_encodeB (off : BitVec 13) (rs2 rs1 : Reg) (f3 : BitVec 3) (op : BitVec 7) :
    rs2Of (encodeB off rs2 rs1 f3 op) = rs2 := by
  apply BitVec.eq_of_getLsbD_eq
  intro i hi
  simp only [rs2Of, encodeB, BitVec.getLsbD_append, BitVec.getLsbD_extractLsb']
  interval_cases i <;> simp

theorem immBOf_encodeB (off : BitVec 13) (rs2 rs1 : Reg) (f3 : BitVec 3) (op : BitVec 7) (h : off.getLsbD 0 = false) :
    immBOf (encodeB off rs2 rs1 f3 op) = off := by
  apply BitVec.eq_of_getLsbD_eq
  intro i hi
  simp only [immBOf, encodeB, BitVec.getLsbD_append, BitVec.getLsbD_extractLsb']
  interval_cases i <;> simp
  simpa using h

@[simp] theorem opcodeOf_encodeU (imm : BitVec 20) (rd : Reg) (op : BitVec 7) :
    opcodeOf (encodeU imm rd op) = op := by
  apply BitVec.eq_of_getLsbD_eq
  intro i hi
  simp only [opcodeOf, encodeU, BitVec.getLsbD_append, BitVec.getLsbD_extractLsb']
  interval_cases i <;> simp

@[simp] theorem rdOf_encodeU (imm : BitVec 20) (rd : Reg) (op : BitVec 7) :
    rdOf (encodeU imm rd op) = rd := by
  apply BitVec.eq_of_getLsbD_eq
  intro i hi
  simp only [rdOf, encodeU, BitVec.getLsbD_append, BitVec.getLsbD_extractLsb']
  interval_cases i <;> simp

@[simp] theorem immUOf_encodeU (imm : BitVec 20) (rd : Reg) (op : BitVec 7) :
    immUOf (encodeU imm rd op) = imm := by
  apply BitVec.eq_of_getLsbD_eq
  intro i hi
  simp only [immUOf, encodeU, BitVec.getLsbD_append, BitVec.getLsbD_extractLsb']
  interval_cases i <;> simp

@[simp] theorem opcodeOf_encodeJ (off : BitVec 21) (rd : Reg) (op : BitVec 7) :
    opcodeOf (encodeJ off rd op) = op := by
  apply BitVec.eq_of_getLsbD_eq
  intro i hi
  simp only [opcodeOf, encodeJ, BitVec.getLsbD_append, BitVec.getLsbD_extractLsb']
  interval_cases i <;> simp

@[simp] theorem rdOf_encodeJ (off : BitVec 21) (rd : Reg) (op : BitVec 7) :
    rdOf (encodeJ off rd op) = rd := by
  apply BitVec.eq_of_getLsbD_eq
  intro i hi
  simp only [rdOf, encodeJ, BitVec.getLsbD_append, BitVec.getLsbD_extractLsb']
  interval_cases i <;> simp

theorem immJOf_encodeJ (off : BitVec 21) (rd : Reg) (op : BitVec 7) (h : off.getLsbD 0 = false) :
    immJOf (encodeJ off rd op) = off := by
  apply BitVec.eq_of_getLsbD_eq
  intro i hi
  simp only [immJOf, encodeJ, BitVec.getLsbD_append, BitVec.getLsbD_extractLsb']
  interval_cases i <;> simp
  simpa using h

/-! ### A word is its fields put together -/

theorem encodeR_fields (w : Word) : encodeR (funct7Of w) (rs2Of w) (rs1Of w) (funct3Of w) (rdOf w) (opcodeOf w) = w := by
  apply BitVec.eq_of_getLsbD_eq
  intro i hi
  simp only [encodeR, funct7Of, rs2Of, rs1Of, funct3Of, rdOf, opcodeOf, BitVec.getLsbD_append,
    BitVec.getLsbD_extractLsb']
  interval_cases i <;> simp

theorem encodeI_fields (w : Word) : encodeI (immIOf w) (rs1Of w) (funct3Of w) (rdOf w) (opcodeOf w) = w := by
  apply BitVec.eq_of_getLsbD_eq
  intro i hi
  simp only [encodeI, immIOf, rs1Of, funct3Of, rdOf, opcodeOf, BitVec.getLsbD_append,
    BitVec.getLsbD_extractLsb']
  interval_cases i <;> simp

theorem encodeS_fields (w : Word) : encodeS (immSOf w) (rs2Of w) (rs1Of w) (funct3Of w) (opcodeOf w) = w := by
  apply BitVec.eq_of_getLsbD_eq
  intro i hi
  simp only [encodeS, immSOf, rs2Of, rs1Of, funct3Of, opcodeOf, BitVec.getLsbD_append,
    BitVec.getLsbD_extractLsb']
  interval_cases i <;> simp

theorem encodeB_fields (w : Word) : encodeB (immBOf w) (rs2Of w) (rs1Of w) (funct3Of w) (opcodeOf w) = w := by
  apply BitVec.eq_of_getLsbD_eq
  intro i hi
  simp only [encodeB, immBOf, rs2Of, rs1Of, funct3Of, opcodeOf, BitVec.getLsbD_append,
    BitVec.getLsbD_extractLsb']
  interval_cases i <;> simp

theorem encodeU_fields (w : Word) : encodeU (immUOf w) (rdOf w) (opcodeOf w) = w := by
  apply BitVec.eq_of_getLsbD_eq
  intro i hi
  simp only [encodeU, immUOf, rdOf, opcodeOf, BitVec.getLsbD_append,
    BitVec.getLsbD_extractLsb']
  interval_cases i <;> simp

theorem encodeJ_fields (w : Word) : encodeJ (immJOf w) (rdOf w) (opcodeOf w) = w := by
  apply BitVec.eq_of_getLsbD_eq
  intro i hi
  simp only [encodeJ, immJOf, rdOf, opcodeOf, BitVec.getLsbD_append,
    BitVec.getLsbD_extractLsb']
  interval_cases i <;> simp

/-- "It is always even" (R67). -/
theorem immBOf_even (w : Word) : (immBOf w).getLsbD 0 = false := by
  simp only [immBOf, BitVec.getLsbD_append]; simp

/-- "It is always even" (R69). -/
theorem immJOf_even (w : Word) : (immJOf w).getLsbD 0 = false := by
  simp only [immJOf, BitVec.getLsbD_append]; simp

/-- The offsets stay even when they are extended to 32 bits. -/
theorem sext13_even {off : BitVec 13} (h : off.getLsbD 0 = false) : (sext13 off).getLsbD 0 = false := by
  simp only [sext13, BitVec.getLsbD_signExtend]; simpa using h

theorem sext21_even {off : BitVec 21} (h : off.getLsbD 0 = false) : (sext21 off).getLsbD 0 = false := by
  simp only [sext21, BitVec.getLsbD_signExtend]; simpa using h

/-- A field of a word whose fixed bits are known. -/
theorem field_of_fixed {w mask pattern : Word} (h : w &&& mask = pattern) (lo len : Nat)
    (hm : mask.extractLsb' lo len = BitVec.allOnes len) : w.extractLsb' lo len = pattern.extractLsb' lo len := by
  rw [← h, BitVec.extractLsb'_and, hm, BitVec.and_allOnes]

/-! ### The verdicts -/

/-- The destination register of an instruction is the rd field of its word, if it has one (R70). -/
def Instr.rd? : Instr → Option Reg
  | .add rd _ _ => some rd
  | .sub rd _ _ => some rd
  | .sll rd _ _ => some rd
  | .xor rd _ _ => some rd
  | .srl rd _ _ => some rd
  | .sra rd _ _ => some rd
  | .or rd _ _ => some rd
  | .and rd _ _ => some rd
  | .addi rd _ _ => some rd
  | .lw rd _ _ => some rd
  | .sw _ _ _ => none
  | .beq _ _ _ => none
  | .bne _ _ _ => none
  | .halt => none
  | .jal rd _ => some rd
  | .jalr rd _ _ => some rd
  | .lui rd _ => some rd
  | .auipc rd _ => some rd

/-- The instruction a verdict speaks of, if any, satisfies `P`. -/
def Verdict.all (P : Instr → Prop) : Verdict → Prop
  | .instr i => P i
  | .illegal _ => True
  | .unsettled _ i => P i

theorem verdict_all_byFunct7 {P : Instr → Prop} (w : Word) {i j : Instr} (hi : P i) (hj : P j) :
    (byFunct7 w i j).all P := by
  unfold byFunct7; split_ifs
  exacts [hi, hj, trivial]

theorem verdict_all_settledIfFunct7Zero {P : Instr → Prop} (w : Word) {i : Instr} (hi : P i) :
    (settledIfFunct7Zero w i).all P := by
  unfold settledIfFunct7Zero; split_ifs
  exacts [hi, hi]

theorem verdict_all_onlyFunct3 {P : Instr → Prop} (w : Word) (f3 : BitVec 3) {i : Instr} (hi : P i) :
    (onlyFunct3 w f3 i).all P := by
  unfold onlyFunct3; split_ifs
  exacts [hi, trivial]

/-- A property of the verdict's instruction, row by row: each instruction with its operands taken from the word's
fields. Of jal, sw and halt the row's own conditions are given too. -/
theorem decode_all {P : Instr → Prop} (w : Word)
    (hadd : P (.add (rdOf w) (rs1Of w) (rs2Of w))) (hsub : P (.sub (rdOf w) (rs1Of w) (rs2Of w)))
    (hsll : P (.sll (rdOf w) (rs1Of w) (rs2Of w))) (hxor : P (.xor (rdOf w) (rs1Of w) (rs2Of w)))
    (hsrl : P (.srl (rdOf w) (rs1Of w) (rs2Of w))) (hsra : P (.sra (rdOf w) (rs1Of w) (rs2Of w)))
    (hor : P (.or (rdOf w) (rs1Of w) (rs2Of w))) (hand : P (.and (rdOf w) (rs1Of w) (rs2Of w)))
    (haddi : P (.addi (rdOf w) (rs1Of w) (immIOf w))) (hlw : P (.lw (rdOf w) (rs1Of w) (immIOf w)))
    (hsw : opcodeOf w = opStore → P (.sw (rs2Of w) (rs1Of w) (immSOf w)))
    (hbeq : P (.beq (rs1Of w) (rs2Of w) (immBOf w))) (hbne : P (.bne (rs1Of w) (rs2Of w) (immBOf w)))
    (hhalt : opcodeOf w = opJal → rdOf w = 0 → immJOf w = 0 → P .halt)
    (hjal : ¬ (rdOf w = 0 ∧ immJOf w = 0) → P (.jal (rdOf w) (immJOf w)))
    (hjalr : P (.jalr (rdOf w) (rs1Of w) (immIOf w))) (hlui : P (.lui (rdOf w) (immUOf w)))
    (hauipc : P (.auipc (rdOf w) (immUOf w))) : (decode w).all P := by
  have hregister : (decodeRegister w).all P := by
    unfold decodeRegister
    split_ifs
    exacts [verdict_all_byFunct7 w hadd hsub, verdict_all_settledIfFunct7Zero w hsll,
      verdict_all_settledIfFunct7Zero w hxor, verdict_all_byFunct7 w hsrl hsra, verdict_all_settledIfFunct7Zero w hor,
      verdict_all_settledIfFunct7Zero w hand, trivial]
  have hbranch : (decodeBranch w).all P := by
    unfold decodeBranch
    split_ifs
    exacts [hbeq, hbne, trivial]
  have hj : opcodeOf w = opJal → (decodeJal w).all P := by
    intro hop
    unfold decodeJal
    split_ifs with hz
    exacts [hhalt hop hz.1 hz.2, hjal hz]
  have hjr : (decodeJalr w).all P := by
    unfold decodeJalr
    split_ifs
    exacts [hjalr, hjalr]
  unfold decode
  split_ifs with _ _ _ h3 _ h5
  exacts [hregister, verdict_all_onlyFunct3 w _ haddi, verdict_all_onlyFunct3 w _ hlw,
    verdict_all_onlyFunct3 w _ (hsw h3), hbranch, hj h5, hjr, hlui, hauipc, trivial]

/-- Every instruction the dispatch table gives, or would give under a policy, is well formed. -/
theorem decode_all_wellFormed (w : Word) : (decode w).all fun i => i.wellFormed = true := by
  have hb : branchOffsetEven (immBOf w) = true := by simp only [branchOffsetEven, immBOf_even]; rfl
  have hj : ¬ (rdOf w = 0 ∧ immJOf w = 0) → (Instr.jal (rdOf w) (immJOf w)).wellFormed = true := by
    intro hz
    simp only [Instr.wellFormed, jumpOffsetEven, jalNotHaltWord, immJOf_even]
    simpa [imp_iff_not_or] using hz
  exact decode_all w rfl rfl rfl rfl rfl rfl rfl rfl rfl rfl (fun _ => rfl) hb hb (fun _ _ _ => rfl) hj rfl rfl rfl

/-- The destination register of the verdict's instruction is the word's rd field (R70). -/
theorem decode_all_rd (w : Word) : (decode w).all fun i => i.rd? = none ∨ i.rd? = some (rdOf w) :=
  decode_all w (.inr rfl) (.inr rfl) (.inr rfl) (.inr rfl) (.inr rfl) (.inr rfl) (.inr rfl) (.inr rfl) (.inr rfl)
    (.inr rfl) (fun _ => .inl rfl) (.inl rfl) (.inl rfl) (fun _ _ _ => .inl rfl) (fun _ => .inr rfl) (.inr rfl)
    (.inr rfl) (.inr rfl)

/-- The instruction a configuration executes is the one the verdict speaks of. -/
theorem dispatch_all {P : Instr → Prop} {c : Config} {w : Word} {i : Instr} (hv : (decode w).all P)
    (h : dispatch c w = .execute i) : P i := by
  unfold dispatch at h
  cases hd : decode w with
  | instr j => rw [hd] at h hv; cases h; exact hv
  | illegal why => rw [hd] at h; cases h
  | unsettled g j =>
    rw [hd] at h hv
    have hj : j = i := by
      unfold Verdict.action unsettledAction at h
      cases g <;> simp only at h <;> split at h <;> first | contradiction | (cases h; rfl)
    subst hj; exact hv

/-- What a configuration makes of a word is an instruction that is well formed. -/
theorem dispatch_wellFormed {c : Config} {w : Word} {i : Instr} (h : dispatch c w = .execute i) :
    i.wellFormed = true :=
  dispatch_all (P := fun i => i.wellFormed = true) (decode_all_wellFormed w) h

/-- What decoding four bytes and more answers is what their word is. -/
theorem decodeBytes_ok {b0 b1 b2 b3 : Byte} {rest tail : List Byte} {i : Instr} :
    decodeBytes (b0 :: b1 :: b2 :: b3 :: rest) = .ok (i, tail) ↔
      decode (Machine.wordOfBytes b0 b1 b2 b3) = .instr i ∧ rest = tail := by
  simp only [decodeBytes]
  cases decode (Machine.wordOfBytes b0 b1 b2 b3) <;> simp

/-- The fields of a word whose instruction is halt: only the halt row gives it (R101). -/
theorem decode_all_halt (w : Word) :
    (decode w).all fun i => i = .halt → opcodeOf w = opJal ∧ rdOf w = 0 ∧ immJOf w = 0 := by
  apply decode_all <;> simp +contextual

/-- The word whose fields are those of the halt row (R101). -/
theorem halt_word_of_fields {w : Word} (h : opcodeOf w = opJal ∧ rdOf w = 0 ∧ immJOf w = 0) : w = 0x0000006F#32 := by
  obtain ⟨hop, hrd, himm⟩ := h
  rw [← encodeJ_fields w, hrd, himm, hop]
  rfl

/-- The word of the halt row is one word (R101). -/
theorem decode_halt_word {w : Word} (h : decode w = .instr .halt) : w = 0x0000006F#32 := by
  have other := decode_all_halt w
  rw [h] at other
  exact halt_word_of_fields (other rfl)

/-- No configuration executes another word as halt (R101). -/
theorem dispatch_halt_word {c : Config} {w : Word} (h : dispatch c w = .execute .halt) : w = 0x0000006F#32 :=
  halt_word_of_fields (dispatch_all (decode_all_halt w) h rfl)

/-- Only a word of the sw row is executed as sw, under every configuration (R72). -/
theorem dispatch_sw_word {c : Config} {w : Word} {rs2 rs1 : Reg} {imm : BitVec 12}
    (h : dispatch c w = .execute (.sw rs2 rs1 imm)) : decode w = .instr (.sw rs2 rs1 imm) := by
  have hall : (decode w).all fun i => i = .sw rs2 rs1 imm → opcodeOf w = opStore := by
    apply decode_all <;> simp +contextual
  have hop := dispatch_all hall h rfl
  have hd : decode w = onlyFunct3 w 2 (.sw (rs2Of w) (rs1Of w) (immSOf w)) := by
    unfold decode; rw [hop]; rfl
  unfold dispatch at h
  rw [hd] at h ⊢
  unfold onlyFunct3 at h ⊢
  split_ifs at h ⊢ with hf
  · cases h; rfl
  · cases h

end Sys2Proof
end

