-- ==== Sys2Proof/Laws/Memory.lean ====
section
/-! SUPPORT. The bounded memory: a read after a write, the canonical form, and that every operation keeps it
(R42 to R48, R94). -/

namespace Sys2Proof.Machine

/-! ### The cells -/

/-- Canonical cells that start at `lo` list nothing below it. -/
theorem cellsGet_below {size : Nat} : ∀ {lo : Nat} {cells : List Host.Cell} {a : Nat},
    cellsWf size lo cells = true → a < lo → cellsGet cells a = unlistedByte
  | _, [], _, _, _ => rfl
  | lo, (k, b) :: rest, a, hwf, ha => by
    simp only [cellsWf, Bool.and_eq_true, decide_eq_true_eq] at hwf
    have hk : ¬ k = a := by omega
    simp only [cellsGet, hk, if_false]
    exact cellsGet_below hwf.2 (by omega)

/-- A write leaves every other address alone. -/
theorem cellsGet_cellsPut_other : ∀ (cells : List Host.Cell) {a b : Nat} (v : Byte), b ≠ a →
    cellsGet (cellsPut cells a v) b = cellsGet cells b
  | [], a, b, v, h => by
    by_cases hv : v = unlistedByte <;> simp [cellsPut, cellsGet, hv, Ne.symm h]
  | (k, c) :: rest, a, b, v, h => by
    have ih := cellsGet_cellsPut_other rest v h
    unfold cellsPut
    split
    · split <;> simp [cellsGet, Ne.symm h]
    · split
      · rename_i hk; subst hk
        split <;> simp [cellsGet, Ne.symm h]
      · simp [cellsGet, ih]

/-- A read after a write of the same address. -/
theorem cellsGet_cellsPut_same {size : Nat} : ∀ {lo : Nat} {cells : List Host.Cell} (a : Nat) (v : Byte),
    cellsWf size lo cells = true → cellsGet (cellsPut cells a v) a = v
  | _, [], a, v, _ => by
    by_cases hv : v = unlistedByte <;> simp [cellsPut, cellsGet, hv]
  | lo, (k, c) :: rest, a, v, hwf => by
    have hrest := hwf
    simp only [cellsWf, Bool.and_eq_true, decide_eq_true_eq] at hrest
    unfold cellsPut
    split
    · rename_i hlt
      split
      · rename_i hv
        have hk : ¬ k = a := by omega
        simp only [cellsGet, hk, if_false, hv]
        exact cellsGet_below hrest.2 (by omega)
      · simp [cellsGet]
    · split
      · rename_i hk; subst hk
        split
        · rename_i hv; rw [hv]; exact cellsGet_below hrest.2 (by omega)
        · simp [cellsGet]
      · rename_i hk
        have hk' : ¬ k = a := fun h => hk h.symm
        simp only [cellsGet, hk', if_false]
        exact cellsGet_cellsPut_same a v hrest.2

/-- Canonical cells stay canonical from any lower start. -/
theorem cellsWf_mono {size lo lo' : Nat} {cells : List Host.Cell} (h : cellsWf size lo cells = true) (hle : lo' ≤ lo) :
    cellsWf size lo' cells = true := by
  cases cells with
  | nil => rfl
  | cons c rest =>
    obtain ⟨k, b⟩ := c
    simp only [cellsWf, Bool.and_eq_true, decide_eq_true_eq] at h ⊢
    exact ⟨⟨⟨by omega, h.1.1.2⟩, h.1.2⟩, h.2⟩

/-- A larger capacity holds the same cells. -/
theorem cellsWf_grow {size size' : Nat} (hle : size ≤ size') : ∀ {lo : Nat} {cells : List Host.Cell},
    cellsWf size lo cells = true → cellsWf size' lo cells = true
  | _, [], _ => rfl
  | lo, (k, b) :: rest, h => by
    simp only [cellsWf, Bool.and_eq_true, decide_eq_true_eq] at h ⊢
    exact ⟨⟨⟨h.1.1.1, by omega⟩, h.1.2⟩, cellsWf_grow hle h.2⟩

/-- A write below the capacity keeps the canonical form. -/
theorem cellsWf_cellsPut {size : Nat} : ∀ {lo : Nat} {cells : List Host.Cell} {a : Nat} (v : Byte),
    cellsWf size lo cells = true → lo ≤ a → a < size → cellsWf size lo (cellsPut cells a v) = true
  | lo, [], a, v, _, hlo, ha => by
    by_cases hv : v = unlistedByte <;> simp [cellsPut, cellsWf, hv, hlo, ha]
  | lo, (k, c) :: rest, a, v, hwf, hlo, ha => by
    have h := hwf
    simp only [cellsWf, Bool.and_eq_true, decide_eq_true_eq] at h
    unfold cellsPut
    split
    · rename_i hlt
      split
      · exact hwf
      · rename_i hv
        simp only [cellsWf, Bool.and_eq_true, decide_eq_true_eq]
        exact ⟨⟨⟨hlo, ha⟩, hv⟩, ⟨⟨by omega, h.1.1.2⟩, h.1.2⟩, h.2⟩
    · split
      · rename_i hk; subst hk
        split
        · exact cellsWf_mono h.2 (by omega)
        · rename_i hv
          simp only [cellsWf, Bool.and_eq_true, decide_eq_true_eq]
          exact ⟨⟨⟨hlo, ha⟩, hv⟩, h.2⟩
      · simp only [cellsWf, Bool.and_eq_true, decide_eq_true_eq]
        exact ⟨h.1, cellsWf_cellsPut v h.2 (by omega) ha⟩

/-- Canonical cells with the same bytes are the same list. -/
theorem cells_ext {size : Nat} : ∀ {lo : Nat} {c d : List Host.Cell},
    cellsWf size lo c = true → cellsWf size lo d = true → (∀ a, cellsGet c a = cellsGet d a) → c = d
  | _, [], [], _, _, _ => rfl
  | lo, [], (k, b) :: rest, _, hd, h => by
    simp only [cellsWf, Bool.and_eq_true, decide_eq_true_eq] at hd
    have := h k
    simp only [cellsGet, if_true] at this
    exact absurd this.symm hd.1.2
  | lo, (k, b) :: rest, [], hc, _, h => by
    simp only [cellsWf, Bool.and_eq_true, decide_eq_true_eq] at hc
    have := h k
    simp only [cellsGet, if_true] at this
    exact absurd this hc.1.2
  | lo, (k, b) :: rest, (k', b') :: rest', hc, hd, h => by
    have hc' := hc
    have hd' := hd
    simp only [cellsWf, Bool.and_eq_true, decide_eq_true_eq] at hc' hd'
    have below : ∀ {j : Nat} {c : List Host.Cell}, cellsWf size (j + 1) c = true → cellsGet c j = unlistedByte :=
      fun hw => cellsGet_below hw (by omega)
    have hkk : k = k' := by
      rcases Nat.lt_trichotomy k k' with hlt | heq | hlt
      · have := h k
        simp only [cellsGet, if_true, if_neg (show ¬ k' = k by omega)] at this
        rw [cellsGet_below hd'.2 (by omega)] at this
        exact absurd this hc'.1.2
      · exact heq
      · have := h k'
        simp only [cellsGet, if_true, if_neg (show ¬ k = k' by omega)] at this
        rw [cellsGet_below hc'.2 (by omega)] at this
        exact absurd this.symm hd'.1.2
    subst hkk
    have hb : b = b' := by simpa [cellsGet] using h k
    subst hb
    have : rest = rest' := by
      apply cells_ext hc'.2 hd'.2
      intro a
      by_cases ha : k = a
      · subst ha; rw [below hc'.2, below hd'.2]
      · simpa [cellsGet, ha] using h a
    rw [this]

/-! ### The memory -/

@[simp] theorem putWord_size (m : Memory) (a : Nat) (v : Word) : (m.putWord a v).size = m.size := rfl

/-- The bytes after a word is put: byte k of the word at a + k, every other byte as before (R44). -/
theorem putWord_get {m : Memory} (hwf : m.wf = true) {a : Nat} (h : a + 4 ≤ m.size) (v : Word) (b : Nat) :
    cellsGet (m.putWord a v).cells b =
      if b = a then byteOfWord v 0 else if b = a + 1 then byteOfWord v 1 else if b = a + 2 then byteOfWord v 2
      else if b = a + 3 then byteOfWord v 3 else cellsGet m.cells b := by
  have w0 : cellsWf m.size 0 m.cells = true := hwf
  have w1 := cellsWf_cellsPut (a := a) (byteOfWord v 0) w0 (Nat.zero_le _) (by omega)
  have w2 := cellsWf_cellsPut (a := a + 1) (byteOfWord v 1) w1 (Nat.zero_le _) (by omega)
  have w3 := cellsWf_cellsPut (a := a + 2) (byteOfWord v 2) w2 (Nat.zero_le _) (by omega)
  unfold Memory.putWord
  by_cases h3 : b = a + 3
  · subst h3
    rw [cellsGet_cellsPut_same _ _ w3]
    simp
  rw [cellsGet_cellsPut_other _ _ h3]
  by_cases h2 : b = a + 2
  · subst h2
    rw [cellsGet_cellsPut_same _ _ w2]
    simp
  rw [cellsGet_cellsPut_other _ _ h2]
  by_cases h1 : b = a + 1
  · subst h1
    rw [cellsGet_cellsPut_same _ _ w1]
    simp
  rw [cellsGet_cellsPut_other _ _ h1]
  by_cases h0 : b = a
  · subst h0
    rw [cellsGet_cellsPut_same _ _ w0]
    simp
  rw [cellsGet_cellsPut_other _ _ h0]
  simp [h0, h1, h2, h3]

/-- The byte read after a word is put in range (R44). -/
theorem byte?_putWord {m : Memory} (hwf : m.wf = true) {a : Nat} (h : a + 4 ≤ m.size) (v : Word) {k : Nat} (hk : k < 4) :
    (m.putWord a v).byte? (a + k) = some (byteOfWord v k) := by
  unfold Memory.byte?
  rw [if_pos (by rw [putWord_size]; omega), putWord_get hwf h]
  interval_cases k <;> simp

/-- The byte at every other address reads as before (R44: "No other byte changes"). -/
theorem byte?_putWord_other (m : Memory) (a : Nat) (v : Word) {b : Nat} (hb : b < a ∨ a + 4 ≤ b) :
    (m.putWord a v).byte? b = m.byte? b := by
  have e : cellsGet (m.putWord a v).cells b = cellsGet m.cells b := by
    unfold Memory.putWord
    rw [cellsGet_cellsPut_other _ _ (by omega), cellsGet_cellsPut_other _ _ (by omega),
      cellsGet_cellsPut_other _ _ (by omega), cellsGet_cellsPut_other _ _ (by omega)]
  unfold Memory.byte?
  rw [e]; rfl

/-- The bytes a load puts together (R43). -/
theorem byte?_of_lt {m : Memory} {a : Nat} (h : a < m.size) : m.byte? a = some (cellsGet m.cells a) := by
  unfold Memory.byte?; rw [if_pos h]

/-- Putting a word in range keeps the canonical form. -/
theorem putWord_wf {m : Memory} (hwf : m.wf = true) {a : Nat} (h : a + 4 ≤ m.size) (v : Word) :
    (m.putWord a v).wf = true := by
  have w0 : cellsWf m.size 0 m.cells = true := hwf
  have w1 := cellsWf_cellsPut (a := a) (byteOfWord v 0) w0 (Nat.zero_le _) (by omega)
  have w2 := cellsWf_cellsPut (a := a + 1) (byteOfWord v 1) w1 (Nat.zero_le _) (by omega)
  have w3 := cellsWf_cellsPut (a := a + 2) (byteOfWord v 2) w2 (Nat.zero_le _) (by omega)
  exact cellsWf_cellsPut (a := a + 3) (byteOfWord v 3) w3 (Nat.zero_le _) (show a + 3 < (m.putWord a v).size by rw [putWord_size]; omega)

/-- All that `load_u32` can do (R42, R43). -/
theorem loadU32_cases (m : Memory) (a : Nat) :
    (a + 4 ≤ m.size ∧ m.loadU32 a = some (wordOfBytes (cellsGet m.cells a) (cellsGet m.cells (a + 1))
      (cellsGet m.cells (a + 2)) (cellsGet m.cells (a + 3)))) ∨
    (m.size < a + 4 ∧ m.loadU32 a = none) := by
  by_cases h : a + 4 ≤ m.size
  · exact .inl ⟨h, by simp [Memory.loadU32, Memory.inRange, h]⟩
  · exact .inr ⟨by omega, by simp [Memory.loadU32, Memory.inRange, h]⟩

/-- All that `store_u32` can do (R42, R44, R45). -/
theorem storeU32_cases (m : Memory) (a : Nat) (v : Word) :
    (a + 4 ≤ m.size ∧ m.storeU32 a v = some (m.putWord a v)) ∨ (m.size < a + 4 ∧ m.storeU32 a v = none) := by
  by_cases h : a + 4 ≤ m.size
  · exact .inl ⟨h, by simp [Memory.storeU32, Memory.inRange, h]⟩
  · exact .inr ⟨by omega, by simp [Memory.storeU32, Memory.inRange, h]⟩

/-- A store that is made leaves the capacity and keeps the canonical form. -/
theorem storeU32_keeps {m n : Memory} {a : Nat} {v : Word} (hwf : m.wf = true) (h : m.storeU32 a v = some n) :
    n.wf = true ∧ n.size = m.size := by
  rcases storeU32_cases m a v with ⟨hr, he⟩ | ⟨_, he⟩
  · rw [he] at h; cases h; exact ⟨putWord_wf hwf hr v, rfl⟩
  · rw [he] at h; cases h

/-- The bytes of a word, put together again, are the word. -/
theorem wordOfBytes_byteOfWord (v : Word) :
    wordOfBytes (byteOfWord v 0) (byteOfWord v 1) (byteOfWord v 2) (byteOfWord v 3) = v := by
  apply BitVec.eq_of_getLsbD_eq
  intro i hi
  simp only [wordOfBytes, byteOfWord, BitVec.getLsbD_append, BitVec.getLsbD_extractLsb']
  interval_cases i <;> simp

/-- A word read back from where it was put (R94). -/
theorem loadU32_putWord {m : Memory} (hwf : m.wf = true) {a : Nat} (h : a + 4 ≤ m.size) (v : Word) :
    (m.putWord a v).loadU32 a = some v := by
  rcases loadU32_cases (m.putWord a v) a with ⟨_, he⟩ | ⟨hr, _⟩
  · rw [he]
    simp only [putWord_get hwf h]
    simp [wordOfBytes_byteOfWord]
  · rw [putWord_size] at hr; omega

/-- Launch contents keep the canonical form, whatever they list. -/
theorem construct_wf (size : Nat) (contents : List Host.Cell) :
    (Memory.construct size contents).wf = true ∧ (Memory.construct size contents).size = size := by
  have step : ∀ (cs : List Host.Cell) (m : Memory), m.wf = true → m.size = size →
      (cs.foldl Memory.putInit m).wf = true ∧ (cs.foldl Memory.putInit m).size = size := by
    intro cs
    induction cs with
    | nil => intro m h hs; exact ⟨h, hs⟩
    | cons c rest ih =>
      intro m h hs
      simp only [List.foldl_cons]
      apply ih
      · unfold Memory.putInit
        split
        · rename_i hlt; exact cellsWf_cellsPut c.2 h (Nat.zero_le _) hlt
        · exact h
      · unfold Memory.putInit; split <;> exact hs
  exact step contents ⟨size, []⟩ rfl rfl

/-- Placing a word for the next fetch keeps the canonical form, raised capacity or not. -/
theorem placeWord_wf {m : Memory} (hwf : m.wf = true) (a : Nat) (v : Word) : (m.placeWord a v).wf = true := by
  unfold Memory.placeWord
  split
  · apply putWord_wf
    · exact cellsWf_grow (Nat.le_max_left m.size (a + 4)) hwf
    · exact Nat.le_max_right m.size (a + 4)
  · exact hwf

/-- Canonical memories of one capacity with the same bytes are the same data. -/
theorem memory_ext {m n : Memory} (hm : m.wf = true) (hn : n.wf = true) (hs : m.size = n.size)
    (h : ∀ a, m.byte? a = n.byte? a) : m = n := by
  obtain ⟨size, c⟩ := m
  obtain ⟨size', d⟩ := n
  simp only at hs
  subst hs
  have hc : cellsWf size 0 c = true := hm
  have hd : cellsWf size 0 d = true := hn
  have : c = d := by
    apply cells_ext hc hd
    intro a
    by_cases ha : a < size
    · simpa [Memory.byte?, ha] using h a
    · have out : ∀ (lo : Nat) (e : List Host.Cell), cellsWf size lo e = true → cellsGet e a = unlistedByte := by
        intro lo e
        induction e generalizing lo with
        | nil => intro _; rfl
        | cons x rest ih =>
          obtain ⟨k, b⟩ := x
          intro hw
          simp only [cellsWf, Bool.and_eq_true, decide_eq_true_eq] at hw
          have hk : ¬ k = a := by omega
          simp only [cellsGet, hk, if_false]
          exact ih _ hw.2
      rw [out 0 c hc, out 0 d hd]
  rw [this]

end Sys2Proof.Machine
end

