-- ==== Sys2Proof/Laws/State.lean ====
section
/-! SUPPORT. One lemma per field per update of State, each true by unfolding that update once, so that no later proof
unfolds a record update. -/

namespace Sys2Proof.Machine

variable (s : State)

/-! ### continueAt -/

@[simp] theorem continueAt_regs (next : Word) : (continueAt s next).regs = s.regs := rfl
@[simp] theorem continueAt_pc (next : Word) : (continueAt s next).pc = next := rfl
@[simp] theorem continueAt_imem (next : Word) : (continueAt s next).imem = s.imem := rfl
@[simp] theorem continueAt_dmem (next : Word) : (continueAt s next).dmem = s.dmem := rfl
@[simp] theorem continueAt_runState (next : Word) : (continueAt s next).runState = s.runState := rfl
@[simp] theorem continueAt_fault (next : Word) : (continueAt s next).fault = s.fault := rfl
@[simp] theorem continueAt_refusedMark (next : Word) : (continueAt s next).refusedMark = s.refusedMark := rfl
@[simp] theorem continueAt_loaderOpen (next : Word) : (continueAt s next).loaderOpen = s.loaderOpen := rfl
@[simp] theorem continueAt_config (next : Word) : (continueAt s next).config = s.config := rfl
@[simp] theorem readReg_continueAt (next : Word) (r : Reg) : readReg (continueAt s next) r = readReg s r := rfl

/-! ### enterHalted -/

@[simp] theorem enterHalted_regs : (enterHalted s).regs = s.regs := rfl
@[simp] theorem enterHalted_pc : (enterHalted s).pc = s.pc := rfl
@[simp] theorem enterHalted_imem : (enterHalted s).imem = s.imem := rfl
@[simp] theorem enterHalted_dmem : (enterHalted s).dmem = s.dmem := rfl
@[simp] theorem enterHalted_runState : (enterHalted s).runState = .halted := rfl
@[simp] theorem enterHalted_fault : (enterHalted s).fault = s.fault := rfl
@[simp] theorem enterHalted_refusedMark : (enterHalted s).refusedMark = s.refusedMark := rfl
@[simp] theorem enterHalted_loaderOpen : (enterHalted s).loaderOpen = s.loaderOpen := rfl
@[simp] theorem enterHalted_config : (enterHalted s).config = s.config := rfl
@[simp] theorem readReg_enterHalted (r : Reg) : readReg (enterHalted s) r = readReg s r := rfl

/-! ### takeIllegal -/

@[simp] theorem takeIllegal_regs (w : Word) : (takeIllegal s w).regs = s.regs := rfl
@[simp] theorem takeIllegal_pc (w : Word) : (takeIllegal s w).pc = s.pc := rfl
@[simp] theorem takeIllegal_imem (w : Word) : (takeIllegal s w).imem = s.imem := rfl
@[simp] theorem takeIllegal_dmem (w : Word) : (takeIllegal s w).dmem = s.dmem := rfl
@[simp] theorem takeIllegal_runState (w : Word) : (takeIllegal s w).runState = .illegal s.pc w := rfl
@[simp] theorem takeIllegal_fault (w : Word) : (takeIllegal s w).fault = s.fault := rfl
@[simp] theorem takeIllegal_refusedMark (w : Word) : (takeIllegal s w).refusedMark = s.refusedMark := rfl
@[simp] theorem takeIllegal_loaderOpen (w : Word) : (takeIllegal s w).loaderOpen = s.loaderOpen := rfl
@[simp] theorem takeIllegal_config (w : Word) : (takeIllegal s w).config = s.config := rfl
@[simp] theorem readReg_takeIllegal (w : Word) (r : Reg) : readReg (takeIllegal s w) r = readReg s r := rfl

/-! ### latchFault -/

@[simp] theorem latchFault_regs (f : Fault) : (latchFault s f).regs = s.regs := rfl
@[simp] theorem latchFault_pc (f : Fault) : (latchFault s f).pc = s.pc := rfl
@[simp] theorem latchFault_imem (f : Fault) : (latchFault s f).imem = s.imem := rfl
@[simp] theorem latchFault_dmem (f : Fault) : (latchFault s f).dmem = s.dmem := rfl
@[simp] theorem latchFault_runState (f : Fault) : (latchFault s f).runState = s.runState := rfl
@[simp] theorem latchFault_fault (f : Fault) : (latchFault s f).fault = some f := rfl
@[simp] theorem latchFault_refusedMark (f : Fault) : (latchFault s f).refusedMark = s.refusedMark := rfl
@[simp] theorem latchFault_loaderOpen (f : Fault) : (latchFault s f).loaderOpen = s.loaderOpen := rfl
@[simp] theorem latchFault_config (f : Fault) : (latchFault s f).config = s.config := rfl
@[simp] theorem readReg_latchFault (f : Fault) (r : Reg) : readReg (latchFault s f) r = readReg s r := rfl

/-! ### markRefused -/

@[simp] theorem markRefused_regs (pc w : Word) : (markRefused s pc w).regs = s.regs := rfl
@[simp] theorem markRefused_pc (pc w : Word) : (markRefused s pc w).pc = s.pc := rfl
@[simp] theorem markRefused_imem (pc w : Word) : (markRefused s pc w).imem = s.imem := rfl
@[simp] theorem markRefused_dmem (pc w : Word) : (markRefused s pc w).dmem = s.dmem := rfl
@[simp] theorem markRefused_runState (pc w : Word) : (markRefused s pc w).runState = s.runState := rfl
@[simp] theorem markRefused_fault (pc w : Word) : (markRefused s pc w).fault = s.fault := rfl
@[simp] theorem markRefused_refusedMark (pc w : Word) : (markRefused s pc w).refusedMark = some ⟨pc, w⟩ := rfl
@[simp] theorem markRefused_loaderOpen (pc w : Word) : (markRefused s pc w).loaderOpen = s.loaderOpen := rfl
@[simp] theorem markRefused_config (pc w : Word) : (markRefused s pc w).config = s.config := rfl
@[simp] theorem readReg_markRefused (pc w : Word) (r : Reg) : readReg (markRefused s pc w) r = readReg s r := rfl

/-! ### closeLoader -/

@[simp] theorem closeLoader_regs : (closeLoader s).regs = s.regs := rfl
@[simp] theorem closeLoader_pc : (closeLoader s).pc = s.pc := rfl
@[simp] theorem closeLoader_imem : (closeLoader s).imem = s.imem := rfl
@[simp] theorem closeLoader_dmem : (closeLoader s).dmem = s.dmem := rfl
@[simp] theorem closeLoader_runState : (closeLoader s).runState = s.runState := rfl
@[simp] theorem closeLoader_fault : (closeLoader s).fault = s.fault := rfl
@[simp] theorem closeLoader_refusedMark : (closeLoader s).refusedMark = s.refusedMark := rfl
@[simp] theorem closeLoader_loaderOpen : (closeLoader s).loaderOpen = false := rfl
@[simp] theorem closeLoader_config : (closeLoader s).config = s.config := rfl
@[simp] theorem readReg_closeLoader (r : Reg) : readReg (closeLoader s) r = readReg s r := rfl

/-! ### placeFetchWord -/

@[simp] theorem placeFetchWord_regs (w : Word) : (placeFetchWord s w).regs = s.regs := rfl
@[simp] theorem placeFetchWord_pc (w : Word) : (placeFetchWord s w).pc = s.pc := rfl
@[simp] theorem placeFetchWord_imem (w : Word) : (placeFetchWord s w).imem = s.imem.placeWord s.pc.toNat w := rfl
@[simp] theorem placeFetchWord_dmem (w : Word) : (placeFetchWord s w).dmem = s.dmem := rfl
@[simp] theorem placeFetchWord_runState (w : Word) : (placeFetchWord s w).runState = .running := rfl
@[simp] theorem placeFetchWord_fault (w : Word) : (placeFetchWord s w).fault = none := rfl
@[simp] theorem placeFetchWord_refusedMark (w : Word) : (placeFetchWord s w).refusedMark = none := rfl
@[simp] theorem placeFetchWord_loaderOpen (w : Word) : (placeFetchWord s w).loaderOpen = s.loaderOpen := rfl
@[simp] theorem placeFetchWord_config (w : Word) : (placeFetchWord s w).config = s.config := rfl
@[simp] theorem readReg_placeFetchWord (w : Word) (r : Reg) : readReg (placeFetchWord s w) r = readReg s r := rfl

/-! ### setDmem -/

@[simp] theorem setDmem_regs (m : Memory) : (setDmem s m).regs = s.regs := rfl
@[simp] theorem setDmem_pc (m : Memory) : (setDmem s m).pc = s.pc := rfl
@[simp] theorem setDmem_imem (m : Memory) : (setDmem s m).imem = s.imem := rfl
@[simp] theorem setDmem_dmem (m : Memory) : (setDmem s m).dmem = m := rfl
@[simp] theorem setDmem_runState (m : Memory) : (setDmem s m).runState = s.runState := rfl
@[simp] theorem setDmem_fault (m : Memory) : (setDmem s m).fault = s.fault := rfl
@[simp] theorem setDmem_refusedMark (m : Memory) : (setDmem s m).refusedMark = s.refusedMark := rfl
@[simp] theorem setDmem_loaderOpen (m : Memory) : (setDmem s m).loaderOpen = s.loaderOpen := rfl
@[simp] theorem setDmem_config (m : Memory) : (setDmem s m).config = s.config := rfl
@[simp] theorem readReg_setDmem (m : Memory) (r : Reg) : readReg (setDmem s m) r = readReg s r := rfl

/-! ### setImem -/

@[simp] theorem setImem_regs (m : Memory) : (setImem s m).regs = s.regs := rfl
@[simp] theorem setImem_pc (m : Memory) : (setImem s m).pc = s.pc := rfl
@[simp] theorem setImem_imem (m : Memory) : (setImem s m).imem = m := rfl
@[simp] theorem setImem_dmem (m : Memory) : (setImem s m).dmem = s.dmem := rfl
@[simp] theorem setImem_runState (m : Memory) : (setImem s m).runState = s.runState := rfl
@[simp] theorem setImem_fault (m : Memory) : (setImem s m).fault = s.fault := rfl
@[simp] theorem setImem_refusedMark (m : Memory) : (setImem s m).refusedMark = s.refusedMark := rfl
@[simp] theorem setImem_loaderOpen (m : Memory) : (setImem s m).loaderOpen = s.loaderOpen := rfl
@[simp] theorem setImem_config (m : Memory) : (setImem s m).config = s.config := rfl
@[simp] theorem readReg_setImem (m : Memory) (r : Reg) : readReg (setImem s m) r = readReg s r := rfl

/-! ### writeReg, which changes `regs` only -/

@[simp] theorem writeReg_pc (rd : Reg) (v : Word) : (writeReg s rd v).pc = s.pc := by
  unfold writeReg; split <;> rfl
@[simp] theorem writeReg_imem (rd : Reg) (v : Word) : (writeReg s rd v).imem = s.imem := by
  unfold writeReg; split <;> rfl
@[simp] theorem writeReg_dmem (rd : Reg) (v : Word) : (writeReg s rd v).dmem = s.dmem := by
  unfold writeReg; split <;> rfl
@[simp] theorem writeReg_runState (rd : Reg) (v : Word) : (writeReg s rd v).runState = s.runState := by
  unfold writeReg; split <;> rfl
@[simp] theorem writeReg_fault (rd : Reg) (v : Word) : (writeReg s rd v).fault = s.fault := by
  unfold writeReg; split <;> rfl
@[simp] theorem writeReg_refusedMark (rd : Reg) (v : Word) : (writeReg s rd v).refusedMark = s.refusedMark := by
  unfold writeReg; split <;> rfl
@[simp] theorem writeReg_loaderOpen (rd : Reg) (v : Word) : (writeReg s rd v).loaderOpen = s.loaderOpen := by
  unfold writeReg; split <;> rfl
@[simp] theorem writeReg_config (rd : Reg) (v : Word) : (writeReg s rd v).config = s.config := by
  unfold writeReg; split <;> rfl

/-! ### State.launch -/

@[simp] theorem launch_regs (p : Params) : (State.launch p).regs = p.regInit := rfl
@[simp] theorem launch_pc (p : Params) : (State.launch p).pc = 0 := rfl
@[simp] theorem launch_imem (p : Params) : (State.launch p).imem = Memory.construct p.imemSize p.imemInit := rfl
@[simp] theorem launch_dmem (p : Params) : (State.launch p).dmem = Memory.construct p.dmemSize p.dmemInit := rfl
@[simp] theorem launch_runState (p : Params) : (State.launch p).runState = .running := rfl
@[simp] theorem launch_fault (p : Params) : (State.launch p).fault = none := rfl
@[simp] theorem launch_refusedMark (p : Params) : (State.launch p).refusedMark = none := rfl
@[simp] theorem launch_loaderOpen (p : Params) : (State.launch p).loaderOpen = true := rfl
@[simp] theorem launch_config (p : Params) : (State.launch p).config = p.config := rfl

end Sys2Proof.Machine
end

