-- ==== Sys2Proof/Laws/Registers.lean ====
section
/-! SUPPORT. The register file: x0, and a read after a write (R15 to R19). -/

namespace Sys2Proof.Machine

/-- "For index 0 it returns 0" (R15). -/
@[simp] theorem readReg_zero (s : State) : readReg s 0#5 = 0#32 := by
  simp [readReg]

/-- "If `index == 0`, the write is a no-op" (R16). -/
theorem writeReg_zero (s : State) (v : Word) : writeReg s 0#5 v = s := by
  simp [writeReg]

theorem reg_toNat_ne_zero {r : Reg} (h : r ≠ 0#5) : r.toNat ≠ 0 := by
  intro h0; exact h (BitVec.eq_of_toNat_eq (by simpa using h0))

/-- A read after a write of the same register, other than x0. -/
theorem readReg_writeReg_same (s : State) {rd : Reg} (v : Word) (h : rd ≠ 0#5) : readReg (writeReg s rd v) rd = v := by
  have h0 := reg_toNat_ne_zero h
  simp [readReg, writeReg, h0]

/-- A write leaves every other register alone. -/
theorem readReg_writeReg_other (s : State) {rd r : Reg} (v : Word) (h : r ≠ rd) :
    readReg (writeReg s rd v) r = readReg s r := by
  unfold writeReg
  split
  · rfl
  · unfold readReg
    split
    · rfl
    · have : ¬ rd.toNat - 1 = r.toNat - 1 := by
        intro he; apply h; apply BitVec.eq_of_toNat_eq; omega
      simp [this]

/-- What a register reads after a write. -/
theorem readReg_writeReg (s : State) (rd r : Reg) (v : Word) :
    readReg (writeReg s rd v) r = if r = rd ∧ rd ≠ 0#5 then v else readReg s r := by
  by_cases h : r = rd
  · subst h
    by_cases h0 : r = 0#5
    · subst h0; simp [writeReg_zero]
    · simp [h0, readReg_writeReg_same s v h0]
  · simp [h, readReg_writeReg_other]

/-- The register an instruction writes: the value, or 0 where it is x0 (R17). -/
theorem readReg_writeReg_self (s : State) (rd : Reg) (v : Word) :
    readReg (writeReg s rd v) rd = if rd = 0#5 then 0#32 else v := by
  by_cases h : rd = 0#5
  · subst h; simp [writeReg_zero]
  · simp [h, readReg_writeReg_same s v h]

/-- Two states whose registers read alike hold the same register file. -/
theorem regs_eq_of_readReg {s t : State} (h : ∀ r, readReg t r = readReg s r) : t.regs = s.regs := by
  apply Vector.ext
  intro k hk
  have := h (BitVec.ofNat 5 (k + 1))
  have e : (BitVec.ofNat 5 (k + 1)).toNat = k + 1 := by
    simp only [BitVec.toNat_ofNat]; omega
  simpa [readReg, e] using this

end Sys2Proof.Machine
end

