-- ==== Sys2Proof/Laws/Exec.lean ====
section
/-! SUPPORT. What an instruction can do, said once: the memory operations, then the five shapes of next state `exec`
answers with. Later proofs cite these and unfold no meaning. -/

namespace Sys2Proof.Machine

/-! ### Memory operations of the state -/

/-- All that MemRead can do (R42, R43). -/
theorem memRead_cases (s : State) (a : Word) :
    (a.toNat + 4 ≤ s.dmem.size ∧ ∃ v, s.dmem.loadU32 a.toNat = some v ∧ memRead s a = .ok v) ∨
    (s.dmem.size < a.toNat + 4 ∧ memRead s a = .error (.outOfRange .dmem a)) := by
  rcases loadU32_cases s.dmem a.toNat with ⟨h, he⟩ | ⟨h, he⟩
  · exact .inl ⟨h, _, he, by simp [memRead, he]⟩
  · exact .inr ⟨h, by simp [memRead, he]⟩

/-- All that MemWrite can do (R42, R44, R45). -/
theorem memWrite_cases (s : State) (a v : Word) :
    (a.toNat + 4 ≤ s.dmem.size ∧ memWrite s a v = .ok (setDmem s (s.dmem.putWord a.toNat v))) ∨
    (s.dmem.size < a.toNat + 4 ∧ memWrite s a v = .error (.outOfRange .dmem a)) := by
  rcases storeU32_cases s.dmem a.toNat v with ⟨h, he⟩ | ⟨h, he⟩
  · exact .inl ⟨h, by simp [memWrite, he]⟩
  · exact .inr ⟨h, by simp [memWrite, he]⟩

/-- All that a fetch can do (R50). -/
theorem fetch_cases (s : State) :
    (s.pc.toNat + 4 ≤ s.imem.size ∧ ∃ w, s.imem.loadU32 s.pc.toNat = some w ∧ fetch s = .ok w) ∨
    (s.imem.size < s.pc.toNat + 4 ∧ fetch s = .error (.outOfRange .imem s.pc)) := by
  rcases loadU32_cases s.imem s.pc.toNat with ⟨h, he⟩ | ⟨h, he⟩
  · exact .inl ⟨h, _, he, by simp [fetch, he]⟩
  · exact .inr ⟨h, by simp [fetch, he]⟩

/-- Every constructed core's memories are canonical, State.reset's among them. -/
theorem launch_memories_wf (p : Params) : (State.launch p).imem.wf = true ∧ (State.launch p).dmem.wf = true :=
  ⟨(construct_wf _ _).1, (construct_wf _ _).1⟩

theorem reset_memories_wf : State.reset.imem.wf = true ∧ State.reset.dmem.wf = true := launch_memories_wf resetParams

/-- A fetch reads the pc and instruction memory only. -/
theorem fetch_congr {s t : State} (hp : t.pc = s.pc) (hm : t.imem = s.imem) : fetch t = fetch s := by
  simp only [fetch, hp, hm]

/-! ### Parity of the targets (R24) -/

theorem getLsbD_zero_add (a b : Word) : (a + b).getLsbD 0 = (a.getLsbD 0 ^^ b.getLsbD 0) := by
  rw [BitVec.getLsbD_add (by decide)]; simp

theorem pcPlus4_even {s : State} (h : s.pc.getLsbD 0 = false) : (pcPlus4 s).getLsbD 0 = false := by
  unfold pcPlus4; rw [getLsbD_zero_add, h]; rfl

theorem branchTarget_even {s : State} {off : BitVec 13} (h : s.pc.getLsbD 0 = false) (ho : branchOffsetEven off = true) :
    (branchTarget s off).getLsbD 0 = false := by
  unfold branchTarget
  rw [getLsbD_zero_add, h, sext13_even (by simpa [branchOffsetEven] using ho)]; rfl

theorem jumpTarget_even {s : State} {off : BitVec 21} (h : s.pc.getLsbD 0 = false) (ho : jumpOffsetEven off = true) :
    (jumpTarget s off).getLsbD 0 = false := by
  unfold jumpTarget
  rw [getLsbD_zero_add, h, sext21_even (by simpa [jumpOffsetEven] using ho)]; rfl

theorem jalrTarget_even (s : State) (rs1 : Reg) (imm : BitVec 12) : (jalrTarget s rs1 imm).getLsbD 0 = false := by
  unfold jalrTarget; rw [BitVec.getLsbD_and]; simp

/-! ### The shapes of `exec` -/

/-- The next states an instruction can lead to (R12, R22, R101, R108). -/
inductive ExecShape (i : Instr) (s : State) : State → Prop
  /-- A register result and a committed pc. -/
  | result (rd : Reg) (v next : Word) (hrd : i.rd? = some rd)
      (heven : i.wellFormed = true → s.pc.getLsbD 0 = false → next.getLsbD 0 = false) :
      ExecShape i s (continueAt (writeReg s rd v) next)
  /-- A committed pc alone. -/
  | moved (next : Word) (heven : i.wellFormed = true → s.pc.getLsbD 0 = false → next.getLsbD 0 = false) :
      ExecShape i s (continueAt s next)
  /-- A word stored in data memory. -/
  | stored (rs2 rs1 : Reg) (imm : BitVec 12) (hi : i = .sw rs2 rs1 imm)
      (hr : (effectiveAddress s rs1 imm).toNat + 4 ≤ s.dmem.size) :
      ExecShape i s (continueAt (setDmem s (s.dmem.putWord (effectiveAddress s rs1 imm).toNat (readReg s rs2))) (pcPlus4 s))
  /-- The halt convention, by the halt word or by the term `jal 0 0` that stands for no other word. -/
  | halted (hi : i.wellFormed = true → i = .halt) : ExecShape i s (enterHalted s)
  /-- A data access out of range, by lw or sw. -/
  | faulted (r rs1 : Reg) (imm : BitVec 12) (hi : i = .lw r rs1 imm ∨ i = .sw r rs1 imm)
      (hr : s.dmem.size < (effectiveAddress s rs1 imm).toNat + 4) :
      ExecShape i s (latchFault s (.outOfRange .dmem (effectiveAddress s rs1 imm)))

/-- Every instruction answers a next state, of one of five shapes. -/
theorem exec_shape (i : Instr) (s : State) : ∃ t, exec i s = .next t ∧ ExecShape i s t := by
  have plus : i.wellFormed = true → s.pc.getLsbD 0 = false → (pcPlus4 s).getLsbD 0 = false := fun _ => pcPlus4_even
  cases i with
  | lw rd rs1 imm =>
    rcases memRead_cases s (effectiveAddress s rs1 imm) with ⟨_, v, _, he⟩ | ⟨hr, he⟩
    · exact ⟨_, by simp only [exec, execLw, he]; rfl, .result rd v _ rfl plus⟩
    · exact ⟨_, by simp only [exec, execLw, he], .faulted rd rs1 imm (.inl rfl) hr⟩
  | sw rs2 rs1 imm =>
    rcases memWrite_cases s (effectiveAddress s rs1 imm) (readReg s rs2) with ⟨hr, he⟩ | ⟨hr, he⟩
    · exact ⟨_, by simp only [exec, execSw, he], .stored rs2 rs1 imm rfl hr⟩
    · exact ⟨_, by simp only [exec, execSw, he], .faulted rs2 rs1 imm (.inr rfl) hr⟩
  | beq rs1 rs2 off =>
    refine ⟨_, rfl, .moved _ fun hw hp => ?_⟩
    split
    · exact branchTarget_even hp hw
    · exact pcPlus4_even hp
  | bne rs1 rs2 off =>
    refine ⟨_, rfl, .moved _ fun hw hp => ?_⟩
    split
    · exact branchTarget_even hp hw
    · exact pcPlus4_even hp
  | halt => exact ⟨_, rfl, .halted fun _ => rfl⟩
  | jal rd off =>
    by_cases h : rd = 0 ∧ sext21 off = 0
    · refine ⟨_, by simp only [exec, execJal, if_pos h], .halted fun hw => ?_⟩
      have hz : off = 0 := by
        apply BitVec.eq_of_getLsbD_eq
        intro k hk
        have := congrArg (fun w : Word => w.getLsbD k) h.2
        have hk' : k < 32 := by omega
        simp only [sext21, BitVec.getLsbD_signExtend, hk, hk', if_true, decide_true, Bool.true_and] at this
        simpa using this
      simp [Instr.wellFormed, jalNotHaltWord, h.1, hz] at hw
    · refine ⟨_, by simp only [exec, execJal, if_neg h]; rfl, .result rd _ _ rfl fun hw hp => ?_⟩
      simp only [Instr.wellFormed, Bool.and_eq_true] at hw
      exact jumpTarget_even hp hw.1
  | jalr rd rs1 imm => exact ⟨_, rfl, .result rd _ _ rfl fun _ _ => jalrTarget_even s rs1 imm⟩
  | _ => exact ⟨_, rfl, .result _ _ _ rfl plus⟩

/-- The shape of a next state that `exec` answered. -/
theorem exec_next_shape {i : Instr} {s t : State} (h : exec i s = .next t) : ExecShape i s t := by
  obtain ⟨u, hu, hs⟩ := exec_shape i s
  rw [hu] at h; cases h; exact hs

/-- No instruction changes instruction memory, the configuration, the loader interface or the mark (R31, R58). -/
theorem exec_fixed {i : Instr} {s t : State} (h : exec i s = .next t) :
    t.imem = s.imem ∧ t.config = s.config ∧ t.loaderOpen = s.loaderOpen ∧ t.refusedMark = s.refusedMark := by
  cases exec_next_shape h <;> simp

/-- Only sw changes data memory (R44). -/
theorem exec_dmem_of_not_sw {i : Instr} {s t : State} (h : exec i s = .next t) (hi : ∀ a b c, i ≠ .sw a b c) :
    t.dmem = s.dmem := by
  cases exec_next_shape h with
  | stored rs2 rs1 imm he => exact absurd he (hi _ _ _)
  | _ => simp

/-- Only the destination register changes (R19). -/
theorem exec_other_regs {i : Instr} {s t : State} (h : exec i s = .next t) {r : Reg} (hr : i.rd? ≠ some r) :
    readReg t r = readReg s r := by
  cases exec_next_shape h with
  | result rd v next hrd =>
    rw [readReg_continueAt, readReg_writeReg_other]
    rintro rfl; exact hr hrd
  | _ => rfl

end Sys2Proof.Machine
end

