-- ==== Sys2Proof/Laws/Step.lean ====
section
/-! SUPPORT. What a step can do, said once (R28, R33, R111): later proofs about `step` start from `step_shape`. -/

namespace Sys2Proof.Machine

theorem canStep_iff (s : State) :
    canStep s = true ↔ s.runState = .running ∧ s.fault = none ∧ s.refusedMark = none := by
  simp [canStep, and_assoc]

/-- What `step` can answer, and when. The answer is an index of its own, so that `cases` takes any step apart. -/
inductive StepShape (s : State) (r : Result) : Prop
  /-- There is no step (R28). -/
  | noStep (h : canStep s = false) (hr : repeatTerminal s = r)
  /-- The fetch faulted (R50). -/
  | fetchFault (h : canStep s = true) (hs : s.imem.size < s.pc.toNat + 4)
      (hr : .next (latchFault (closeLoader s) (.outOfRange .imem s.pc)) = r)
  /-- The word is IllegalInstruction (R107). -/
  | illegal (h : canStep s = true) (w : Word) (hw : fetch s = .ok w) (hd : dispatch s.config w = .illegal)
      (hr : .next (takeIllegal (closeLoader s) w) = r)
  /-- The word is unsettled, under policy Refuse (R74). -/
  | refused (h : canStep s = true) (w : Word) (hw : fetch s = .ok w) (hd : dispatch s.config w = .refuse)
      (hr : .refused (.unsettledWord s.pc w) = r)
  /-- The word's instruction runs (R33). -/
  | ran (h : canStep s = true) (w : Word) (i : Instr) (hw : fetch s = .ok w) (hd : dispatch s.config w = .execute i)
      (hr : exec i (closeLoader s) = r)

/-- Every step has one of these shapes. -/
theorem step_shape (s : State) : StepShape s (step s) := by
  unfold step runStep
  split
  · rename_i hc
    rcases fetch_cases s with ⟨_, w, _, hw⟩ | ⟨hr, hf⟩
    · have hfa : fetchAction s = .ok (w, dispatch s.config w) := by simp [fetchAction, hw]
      rw [hfa]
      cases hd : dispatch s.config w with
      | execute i => exact .ran hc w i hw hd rfl
      | illegal => exact .illegal hc w hw hd rfl
      | refuse => exact .refused hc w hw hd rfl
    · have hfa : fetchAction s = .error (.outOfRange .imem s.pc) := by simp [fetchAction, hf]
      rw [hfa]; exact .fetchFault hc hr rfl
  · rename_i hc
    exact .noStep (by simpa using hc) rfl

/-- The shape of an answered step. -/
theorem step_shape_of {s : State} {r : Result} (h : step s = r) : StepShape s r := h ▸ step_shape s

/-- A step that cannot be taken answers the state unchanged, if it answers a state (R28). -/
theorem repeatTerminal_next {s t : State} (h : repeatTerminal s = .next t) : t = s := by
  unfold repeatTerminal at h
  split at h
  · cases h
  · split at h <;> cases h; rfl

/-- A step's instruction (R33). -/
theorem step_ran {s : State} {w : Word} {i : Instr} (h : canStep s = true) (hw : fetch s = .ok w)
    (hd : dispatch s.config w = .execute i) : step s = exec i (closeLoader s) := by
  simp [step, runStep, h, fetchAction, hw, hd]

/-- The step whose fetch faults (R50). -/
theorem step_fetchFault {s : State} (h : canStep s = true) (hs : s.imem.size < s.pc.toNat + 4) :
    step s = .next (latchFault (closeLoader s) (.outOfRange .imem s.pc)) := by
  rcases fetch_cases s with ⟨hr, _⟩ | ⟨_, hf⟩
  · omega
  · simp [step, runStep, h, fetchAction, hf]

/-- The step of an IllegalInstruction word (R107). -/
theorem step_illegal {s : State} {w : Word} (h : canStep s = true) (hw : fetch s = .ok w)
    (hd : dispatch s.config w = .illegal) : step s = .next (takeIllegal (closeLoader s) w) := by
  simp [step, runStep, h, fetchAction, hw, hd]

/-- The step of a word left to a policy that refuses it (R74). -/
theorem step_refused {s : State} {w : Word} (h : canStep s = true) (hw : fetch s = .ok w)
    (hd : dispatch s.config w = .refuse) : step s = .refused (.unsettledWord s.pc w) := by
  simp [step, runStep, h, fetchAction, hw, hd]

/-- Where there is no step, the terminal outcome is repeated (R28). -/
theorem step_noStep {s : State} (h : canStep s = false) : step s = repeatTerminal s := by
  simp [step, runStep, h]

end Sys2Proof.Machine
end

