-- ==== Sys2Proof/Laws/Harness.lean ====
section
/-! SUPPORT. What stands around the step: all that a loader write can do (R36, R46), and the core the harness goes on
with after each answer of a step (R28, R74). -/

namespace Sys2Proof.Machine

/-- All that a loader write can do (R36, R46). -/
theorem writeWordAtIndex_cases (s : State) (k : Nat) (v : Word) :
    (s.loaderOpen = true ∧ k * 4 + 4 ≤ s.imem.size ∧
      writeWordAtIndex s k v = .ok (setImem s (s.imem.putWord (k * 4) v))) ∨
    (s.loaderOpen = true ∧ s.imem.size < k * 4 + 4 ∧ writeWordAtIndex s k v = .error (.outOfRange (k * 4))) ∨
    (s.loaderOpen = false ∧ writeWordAtIndex s k v = .error .refused) := by
  cases hl : s.loaderOpen with
  | false => exact .inr (.inr ⟨rfl, by simp [writeWordAtIndex, hl]⟩)
  | true =>
    rcases storeU32_cases s.imem (k * 4) v with ⟨hr, he⟩ | ⟨hr, he⟩
    · exact .inl ⟨rfl, hr, by simp [writeWordAtIndex, hl, he]⟩
    · exact .inr (.inl ⟨rfl, hr, by simp [writeWordAtIndex, hl, he]⟩)

/-- A step that is not taken leaves the harness's core as it was (R28). -/
theorem coreAfter_noStep {s : State} (h : canStep s = false) : coreAfter s (step s) = s := by
  cases hr : step s with
  | next t => exact repeatTerminal_next ((step_noStep h).symm.trans hr)
  | fault f => rfl
  | refused why => cases why <;> simp [coreAfter, coreRefused, h]

/-- All that a step that is taken leaves the harness with: the answered state, or the refused word's mark. -/
theorem coreAfter_step {s : State} (h : canStep s = true) :
    (∃ t, step s = .next t ∧ coreAfter s (step s) = t) ∨
    (∃ w, fetch s = .ok w ∧ dispatch s.config w = .refuse ∧
      coreAfter s (step s) = markRefused (closeLoader s) s.pc w) := by
  cases step_shape s with
  | noStep hn _ => rw [h] at hn; cases hn
  | fetchFault _ _ hr => exact .inl ⟨_, hr.symm, by rw [← hr]; rfl⟩
  | illegal _ _ _ _ hr => exact .inl ⟨_, hr.symm, by rw [← hr]; rfl⟩
  | refused _ w hw hd hr => exact .inr ⟨w, hw, hd, by rw [← hr]; simp [coreAfter, coreRefused, h]⟩
  | ran _ w i hw hd hr =>
    obtain ⟨t, ht, _⟩ := exec_shape i (closeLoader s)
    exact .inl ⟨t, hr.symm.trans ht, by rw [← hr, ht]; rfl⟩

/-- Every step taken that answers a state closes the loader interface (R36). -/
theorem step_next_loaderOpen {s t : State} (h : canStep s = true) (hs : step s = .next t) : t.loaderOpen = false := by
  cases step_shape_of hs with
  | noStep hn _ => rw [h] at hn; cases hn
  | fetchFault _ _ hr => cases hr; rfl
  | illegal _ _ _ _ hr => cases hr; rfl
  | refused _ _ _ _ hr => cases hr
  | ran _ _ _ _ _ hr => exact (exec_fixed hr).2.2.1

/-- Every step taken leaves the harness a core whose loader interface is closed, a refused one included (R36, R129). -/
theorem coreAfter_loaderOpen {s : State} (h : canStep s = true) : (coreAfter s (step s)).loaderOpen = false := by
  rcases coreAfter_step h with ⟨t, ht, hc⟩ | ⟨w, _, _, hc⟩
  · rw [hc]; exact step_next_loaderOpen h ht
  · rw [hc]; rfl

/-- After a refusal, first or repeated, the core holds the mark the refusal names (R28, R74). -/
theorem coreAfter_refusedMark {s : State} {pc w : Word} (h : step s = .refused (.unsettledWord pc w)) :
    (coreAfter s (step s)).refusedMark = some ⟨pc, w⟩ := by
  cases hc : canStep s with
  | true => rw [h]; simp [coreAfter, coreRefused, hc]
  | false =>
    rw [coreAfter_noStep hc]
    rw [step_noStep hc] at h
    unfold repeatTerminal at h
    split at h
    · rename_i m hm; cases h; exact hm
    · split at h <;> cases h

end Sys2Proof.Machine
end

