-- ==== Sys2Proof/Laws/Operands.lean ====
section
/-! SUPPORT. The operand forms as arithmetic (R78, R79, R91, R102, R104, R110). -/

namespace Sys2Proof.Machine

/-- A shift by b is a shift by b mod 32 (R79). -/
theorem shiftAmount_eq (b : Word) : shiftAmount b = b.toNat % 32 := by
  unfold shiftAmount
  rw [BitVec.toNat_and]
  exact Nat.and_two_pow_sub_one_eq_mod b.toNat 5

/-- `ea[1:0] ≠ 0` says that ea is no multiple of 4 (R110). -/
theorem unaligned_eq (ea : Word) : unaligned ea = decide (ea.toNat % 4 ≠ 0) := by
  have h : ea.extractLsb' 0 2 = 0#2 ↔ ea.toNat % 4 = 0 := by
    rw [← BitVec.toNat_inj]; simp [BitVec.extractLsb'_toNat]
  by_cases h0 : ea.toNat % 4 = 0 <;> simp [unaligned, bne, h, h0]

/-- Clearing bit 0 (R102). -/
theorem and_clear_bit0 (x : Word) : x &&& 0xFFFFFFFE#32 = BitVec.ofNat 32 (x.toNat / 2 * 2) := by
  apply BitVec.eq_of_toNat_eq
  have hx := x.isLt
  have h : x &&& 0xFFFFFFFE#32 = (x >>> 1) <<< 1 := by
    apply BitVec.eq_of_getLsbD_eq
    intro i hi
    rw [BitVec.getLsbD_and]
    interval_cases i <;> simp
  rw [h, BitVec.toNat_shiftLeft, BitVec.toNat_ushiftRight, BitVec.toNat_ofNat, Nat.shiftLeft_eq,
    Nat.shiftRight_eq_div_pow, Nat.pow_one]

/-- imm_U as a number (R68). -/
theorem upperImm_eq (imm : BitVec 20) : upperImm imm = BitVec.ofNat 32 (imm.toNat * 4096) := by
  apply BitVec.eq_of_toNat_eq
  have := imm.isLt
  unfold upperImm
  rw [BitVec.toNat_append, BitVec.toNat_ofNat, Nat.shiftLeft_eq]
  simp; omega

end Sys2Proof.Machine
end

