-- ==== Sys2Proof/Laws/PerInstr.lean ====
section
/-! SUPPORT. Statements made per instruction (LAWS.json): RoundTrip, that decoding an encoded well-formed instruction
gives it back, and TableRow, that its word matches its row of spec/opcode_table.json. -/

namespace Sys2Proof

/-- Decoding the word of a well-formed instruction gives the instruction. -/
def Laws.RoundTrip.Statement (i : Instr) : Prop := i.wellFormed = true → decode (encode i) = .instr i

/-- The word of an instruction has the fixed bits of its row. -/
def Laws.TableRow.Statement (i : Instr) : Prop := encode i &&& (tableRow i).mask = (tableRow i).pattern

theorem Laws.RoundTrip.add (rd rs1 rs2 : Reg) : RoundTrip.Statement (.add rd rs1 rs2) := by
  intro _; simp [decode, encode, decodeRegister, byFunct7]

theorem Laws.RoundTrip.sub (rd rs1 rs2 : Reg) : RoundTrip.Statement (.sub rd rs1 rs2) := by
  intro _; simp [decode, encode, decodeRegister, byFunct7]

theorem Laws.RoundTrip.sll (rd rs1 rs2 : Reg) : RoundTrip.Statement (.sll rd rs1 rs2) := by
  intro _; simp [decode, encode, decodeRegister, settledIfFunct7Zero]

theorem Laws.RoundTrip.xor (rd rs1 rs2 : Reg) : RoundTrip.Statement (.xor rd rs1 rs2) := by
  intro _; simp [decode, encode, decodeRegister, settledIfFunct7Zero]

theorem Laws.RoundTrip.srl (rd rs1 rs2 : Reg) : RoundTrip.Statement (.srl rd rs1 rs2) := by
  intro _; simp [decode, encode, decodeRegister, byFunct7]

theorem Laws.RoundTrip.sra (rd rs1 rs2 : Reg) : RoundTrip.Statement (.sra rd rs1 rs2) := by
  intro _; simp [decode, encode, decodeRegister, byFunct7]

theorem Laws.RoundTrip.or (rd rs1 rs2 : Reg) : RoundTrip.Statement (.or rd rs1 rs2) := by
  intro _; simp [decode, encode, decodeRegister, settledIfFunct7Zero]

theorem Laws.RoundTrip.and (rd rs1 rs2 : Reg) : RoundTrip.Statement (.and rd rs1 rs2) := by
  intro _; simp [decode, encode, decodeRegister, settledIfFunct7Zero]

theorem Laws.RoundTrip.addi (rd rs1 : Reg) (imm : BitVec 12) : RoundTrip.Statement (.addi rd rs1 imm) := by
  intro _; simp [decode, encode, onlyFunct3]

theorem Laws.RoundTrip.lw (rd rs1 : Reg) (imm : BitVec 12) : RoundTrip.Statement (.lw rd rs1 imm) := by
  intro _; simp [decode, encode, onlyFunct3]

theorem Laws.RoundTrip.sw (rs2 rs1 : Reg) (imm : BitVec 12) : RoundTrip.Statement (.sw rs2 rs1 imm) := by
  intro _; simp [decode, encode, onlyFunct3]

theorem Laws.RoundTrip.beq (rs1 rs2 : Reg) (off : BitVec 13) : RoundTrip.Statement (.beq rs1 rs2 off) := by
  intro h
  have he : off.getLsbD 0 = false := by simpa [Instr.wellFormed, branchOffsetEven] using h
  simp [decode, encode, decodeBranch, immBOf_encodeB _ _ _ _ _ he]

theorem Laws.RoundTrip.bne (rs1 rs2 : Reg) (off : BitVec 13) : RoundTrip.Statement (.bne rs1 rs2 off) := by
  intro h
  have he : off.getLsbD 0 = false := by simpa [Instr.wellFormed, branchOffsetEven] using h
  simp [decode, encode, decodeBranch, immBOf_encodeB _ _ _ _ _ he]

theorem Laws.RoundTrip.halt : RoundTrip.Statement .halt := by
  intro _; decide

theorem Laws.RoundTrip.jal (rd : Reg) (off : BitVec 21) : RoundTrip.Statement (.jal rd off) := by
  intro h
  simp only [Instr.wellFormed, jumpOffsetEven, jalNotHaltWord, Bool.and_eq_true] at h
  have he : off.getLsbD 0 = false := by simpa using h.1
  have hn : ¬ (rd = 0 ∧ off = 0) := by simpa [imp_iff_not_or] using h.2
  simp only [decode, encode, decodeJal, opcodeOf_encodeJ, rdOf_encodeJ, immJOf_encodeJ _ _ _ he, if_neg hn]
  simp

theorem Laws.RoundTrip.jalr (rd rs1 : Reg) (imm : BitVec 12) : RoundTrip.Statement (.jalr rd rs1 imm) := by
  intro _; simp [decode, encode, decodeJalr]

theorem Laws.RoundTrip.lui (rd : Reg) (imm : BitVec 20) : RoundTrip.Statement (.lui rd imm) := by
  intro _; simp [decode, encode]

theorem Laws.RoundTrip.auipc (rd : Reg) (imm : BitVec 20) : RoundTrip.Statement (.auipc rd imm) := by
  intro _; simp [decode, encode]

/-- The fixed bits of an R word (R63). -/
theorem encodeR_fixed (f7 : BitVec 7) (rs2 rs1 : Reg) (f3 : BitVec 3) (rd : Reg) (op : BitVec 7) :
    encodeR f7 rs2 rs1 f3 rd op &&& 0xFE00707F#32 = f7 ++ 0#10 ++ f3 ++ 0#5 ++ op := by
  apply BitVec.eq_of_getLsbD_eq
  intro i hi
  simp only [encodeR, BitVec.getLsbD_and, BitVec.getLsbD_append]
  interval_cases i <;> simp

/-- The fixed bits of an I word (R63). -/
theorem encodeI_fixed (imm : BitVec 12) (rs1 : Reg) (f3 : BitVec 3) (rd : Reg) (op : BitVec 7) :
    encodeI imm rs1 f3 rd op &&& 0x0000707F#32 = 0#17 ++ f3 ++ 0#5 ++ op := by
  apply BitVec.eq_of_getLsbD_eq
  intro i hi
  simp only [encodeI, BitVec.getLsbD_and, BitVec.getLsbD_append]
  interval_cases i <;> simp

/-- The fixed bits of an S word (R63). -/
theorem encodeS_fixed (imm : BitVec 12) (rs2 rs1 : Reg) (f3 : BitVec 3) (op : BitVec 7) :
    encodeS imm rs2 rs1 f3 op &&& 0x0000707F#32 = 0#17 ++ f3 ++ 0#5 ++ op := by
  apply BitVec.eq_of_getLsbD_eq
  intro i hi
  simp only [encodeS, BitVec.getLsbD_and, BitVec.getLsbD_append]
  interval_cases i <;> simp

/-- The fixed bits of a B word (R63). -/
theorem encodeB_fixed (off : BitVec 13) (rs2 rs1 : Reg) (f3 : BitVec 3) (op : BitVec 7) :
    encodeB off rs2 rs1 f3 op &&& 0x0000707F#32 = 0#17 ++ f3 ++ 0#5 ++ op := by
  apply BitVec.eq_of_getLsbD_eq
  intro i hi
  simp only [encodeB, BitVec.getLsbD_and, BitVec.getLsbD_append]
  interval_cases i <;> simp

/-- The fixed bits of a U word (R63). -/
theorem encodeU_fixed (imm : BitVec 20) (rd : Reg) (op : BitVec 7) :
    encodeU imm rd op &&& 0x0000007F#32 = 0#25 ++ op := by
  apply BitVec.eq_of_getLsbD_eq
  intro i hi
  simp only [encodeU, BitVec.getLsbD_and, BitVec.getLsbD_append]
  interval_cases i <;> simp

/-- The fixed bits of a J word (R63). -/
theorem encodeJ_fixed (off : BitVec 21) (rd : Reg) (op : BitVec 7) :
    encodeJ off rd op &&& 0x0000007F#32 = 0#25 ++ op := by
  apply BitVec.eq_of_getLsbD_eq
  intro i hi
  simp only [encodeJ, BitVec.getLsbD_and, BitVec.getLsbD_append]
  interval_cases i <;> simp

theorem Laws.TableRow.add (rd rs1 rs2 : Reg) : TableRow.Statement (.add rd rs1 rs2) :=
  (encodeR_fixed ..).trans rfl

theorem Laws.TableRow.sub (rd rs1 rs2 : Reg) : TableRow.Statement (.sub rd rs1 rs2) :=
  (encodeR_fixed ..).trans rfl

theorem Laws.TableRow.sll (rd rs1 rs2 : Reg) : TableRow.Statement (.sll rd rs1 rs2) :=
  (encodeR_fixed ..).trans rfl

theorem Laws.TableRow.xor (rd rs1 rs2 : Reg) : TableRow.Statement (.xor rd rs1 rs2) :=
  (encodeR_fixed ..).trans rfl

theorem Laws.TableRow.srl (rd rs1 rs2 : Reg) : TableRow.Statement (.srl rd rs1 rs2) :=
  (encodeR_fixed ..).trans rfl

theorem Laws.TableRow.sra (rd rs1 rs2 : Reg) : TableRow.Statement (.sra rd rs1 rs2) :=
  (encodeR_fixed ..).trans rfl

theorem Laws.TableRow.or (rd rs1 rs2 : Reg) : TableRow.Statement (.or rd rs1 rs2) :=
  (encodeR_fixed ..).trans rfl

theorem Laws.TableRow.and (rd rs1 rs2 : Reg) : TableRow.Statement (.and rd rs1 rs2) :=
  (encodeR_fixed ..).trans rfl

theorem Laws.TableRow.addi (rd rs1 : Reg) (imm : BitVec 12) : TableRow.Statement (.addi rd rs1 imm) :=
  (encodeI_fixed ..).trans rfl

theorem Laws.TableRow.lw (rd rs1 : Reg) (imm : BitVec 12) : TableRow.Statement (.lw rd rs1 imm) :=
  (encodeI_fixed ..).trans rfl

theorem Laws.TableRow.sw (rs2 rs1 : Reg) (imm : BitVec 12) : TableRow.Statement (.sw rs2 rs1 imm) :=
  (encodeS_fixed ..).trans rfl

theorem Laws.TableRow.beq (rs1 rs2 : Reg) (off : BitVec 13) : TableRow.Statement (.beq rs1 rs2 off) :=
  (encodeB_fixed ..).trans rfl

theorem Laws.TableRow.bne (rs1 rs2 : Reg) (off : BitVec 13) : TableRow.Statement (.bne rs1 rs2 off) :=
  (encodeB_fixed ..).trans rfl

theorem Laws.TableRow.halt : TableRow.Statement .halt := by
  unfold TableRow.Statement; decide

theorem Laws.TableRow.jal (rd : Reg) (off : BitVec 21) : TableRow.Statement (.jal rd off) :=
  (encodeJ_fixed ..).trans rfl

theorem Laws.TableRow.jalr (rd rs1 : Reg) (imm : BitVec 12) : TableRow.Statement (.jalr rd rs1 imm) :=
  (encodeI_fixed ..).trans rfl

theorem Laws.TableRow.lui (rd : Reg) (imm : BitVec 20) : TableRow.Statement (.lui rd imm) :=
  (encodeU_fixed ..).trans rfl

theorem Laws.TableRow.auipc (rd : Reg) (imm : BitVec 20) : TableRow.Statement (.auipc rd imm) :=
  (encodeU_fixed ..).trans rfl

end Sys2Proof
end

