-- ==== Sys2Proof/Tests/Slice0.lean ====
section
/-! SUPPORT. The model's own tests. Expected values are those of spec/95_test_vectors.md (its vector is named) or are
worked by hand from the rule named. Then one witness for every statement that has hypotheses. -/

namespace Sys2Proof.Tests

open Sys2Proof.Machine Sys2Proof.Claims

/-! ### Helpers -/

/-- The conventions of spec/95_test_vectors.md: 256 and 64 bytes, zero registers, WARN_UNALIGNED, both policies Refuse. -/
def params (dm : List Host.Cell) : Params where
  imemSize := 256
  dmemSize := 64
  config := ⟨true, false, .refuse, .refuse⟩
  regInit := Vector.replicate 31 0
  imemInit := []
  dmemInit := dm

/-- A Running core with a pc, x1, x2, x3 and data bytes. -/
def base (pc x1 x2 x3 : Word) (dm : List Host.Cell) : State :=
  { writeReg (writeReg (writeReg (State.launch (params dm)) 1 x1) 2 x2) 3 x3 with pc := pc }

/-- The same, with a word at the pc. -/
def core (pc x1 x2 x3 : Word) (dm : List Host.Cell) (w : Word) : State := placeFetchWord (base pc x1 x2 x3 dm) w

/-- The same, under other policies. -/
def coreUnder (r : RtypeFunct7Policy) (j : JalrFunct3Policy) (x1 x2 : Word) (w : Word) : State :=
  { core 0 x1 x2 0 [] w with config := ⟨true, false, j, r⟩ }

/-- The answer is a next state that passes a check. -/
def after (r : Result) (p : State → Bool) : Bool :=
  match r with
  | .next t => p t
  | .fault _ => false
  | .refused _ => false

/-- A register and the pc after an answer. -/
def regPc (r : Result) (rd : Reg) (v pc : Word) : Bool := after r fun t => readReg t rd == v && t.pc == pc

/-- Four bytes of data memory after an answer, lowest address first. -/
def dataBytes (r : Result) (a : Nat) (bs : List Byte) : Bool :=
  after r fun t => (List.range bs.length).map (fun k => readByte t .dmem (a + k)) == bs.map some

/-- A core with the Refused mark. -/
def marked : State := markRefused (core 0 0 0 0 [] 0x004110E7) 0 0x004110E7

/-! ### WellFormed: each check refuses an ill-formed term -/

theorem test_wellFormed_beq_odd : (Instr.beq 1 2 3).wellFormed = false := by decide
theorem test_wellFormed_bne_odd : (Instr.bne 1 2 0x1FFF).wellFormed = false := by decide
theorem test_wellFormed_jal_odd : (Instr.jal 1 5).wellFormed = false := by decide
theorem test_wellFormed_jal_halt : (Instr.jal 0 0).wellFormed = false := by decide

/-! ### Decoding: every constructor by a word written out from its encoding (fields of R63, high to low) -/

theorem test_decode_add : decode 0b0000000_00010_00001_000_00011_0110011#32 = .instr (.add 3 1 2) := by decide
theorem test_decode_sub : decode 0b0100000_00010_00001_000_00011_0110011#32 = .instr (.sub 3 1 2) := by decide
theorem test_decode_sll : decode 0b0000000_00010_00001_001_00011_0110011#32 = .instr (.sll 3 1 2) := by decide
theorem test_decode_xor : decode 0b0000000_00010_00001_100_00011_0110011#32 = .instr (.xor 3 1 2) := by decide
theorem test_decode_srl : decode 0b0000000_00010_00001_101_00011_0110011#32 = .instr (.srl 3 1 2) := by decide
theorem test_decode_sra : decode 0b0100000_00010_00001_101_00011_0110011#32 = .instr (.sra 3 1 2) := by decide
theorem test_decode_or : decode 0b0000000_00010_00001_110_00011_0110011#32 = .instr (.or 3 1 2) := by decide
theorem test_decode_and : decode 0b0000000_00010_00001_111_00011_0110011#32 = .instr (.and 3 1 2) := by decide
theorem test_decode_addi : decode 0b000000000101_00000_000_00101_0010011#32 = .instr (.addi 5 0 5) := by decide
theorem test_decode_lw : decode 0b111111111100_00010_010_00001_0000011#32 = .instr (.lw 1 2 0xFFC) := by decide
theorem test_decode_sw : decode 0b1111111_00011_00010_010_11100_0100011#32 = .instr (.sw 3 2 0xFFC) := by decide
theorem test_decode_beq : decode 0b1_000000_00010_00001_000_0000_0_1100011#32 = .instr (.beq 1 2 0x1000) := by decide
theorem test_decode_bne : decode 0b1_111111_00010_00001_001_1100_1_1100011#32 = .instr (.bne 1 2 0x1FF8) := by decide
theorem test_decode_halt : decode 0b0_0000000000_0_00000000_00000_1101111#32 = .instr .halt := by decide
theorem test_decode_jal : decode 0b1_1111111110_1_11111111_00000_1101111#32 = .instr (.jal 0 0x1FFFFC) := by decide
theorem test_decode_jalr : decode 0b000000000100_00010_000_00001_1100111#32 = .instr (.jalr 1 2 4) := by decide
theorem test_decode_lui : decode 0b00010010001101000101_00001_0110111#32 = .instr (.lui 1 0x12345) := by decide
theorem test_decode_auipc : decode 0b00000000000000000001_00001_0010111#32 = .instr (.auipc 1 1) := by decide

/-- §2.1 -/
theorem test_immediates :
    (decodeFields 0x80000093).immI = 0xFFFFF800 ∧ (decodeFields 0xFE312E23).immS = 0xFFFFFFFC ∧
    (decodeFields 0x7E000FE3).immB = 0x00000FFE ∧ (decodeFields 0x00000FE3).immB = 0x0000081E ∧
    (decodeFields 0x80000FB7).immU = 0x80000000 ∧ (decodeFields 0x7FFFF0EF).immJ = 0x000FFFFE ∧
    (decodeFields 0x800000EF).immJ = 0xFFF00000 := by decide

/-- V1.2 -/
theorem test_sign_extend :
    signExtendBits 0x800 12 = some 0xFFFFF800 ∧ signExtendBits 0xFFE 13 = some 0xFFE ∧
    signExtendBits 0x100000 21 = some 0xFFF00000 ∧ signExtendBits 1 1 = some 0xFFFFFFFF ∧
    signExtendBits 0x80000000 32 = some 0x80000000 := by decide

/-- §2.2 -/
theorem test_illegal_words :
    decode 0 = .illegal .opcode ∧ decode 0x00000073 = .illegal .opcode ∧ decode 0x00101013 = .illegal .funct3 ∧
    decode 0x00000083 = .illegal .funct3 ∧ decode 0x0020A1B3 = .illegal .funct3 ∧
    decode 0x802081B3 = .illegal .funct7 ∧ decode 0x0220D1B3 = .illegal .funct7 := by decide

theorem test_decodeBytes_little_endian :
    decodeBytes [0x93, 0x02, 0x50, 0x00, 0xAA] = .ok (.addi 5 0 5, [0xAA]) := by rfl
theorem test_decodeBytes_too_short : decodeBytes [0x93, 0x02, 0x50] = .error .tooShort := by rfl
theorem test_decodeTableWord : decodeTableWord 32 0xFE312E23 = some (.sw 3 2 0xFFC) := by decide
theorem test_withFetchWord : after (step (State.reset.withFetchWord 32 0x00500293)) (fun t =>
    readReg t 5 == 5 && t.pc == 4) = true := by decide

/-! ### One step of each instruction -/

/-- V1.4, row 2 -/
theorem test_add_wraps : regPc (step (core 0 0xFFFFFFFF 1 0 [] 0x002081B3)) 3 0 4 = true := by decide
/-- R83 -/
theorem test_sub_borrows : regPc (step (core 0 0 1 0 [] 0x402081B3)) 3 0xFFFFFFFF 4 = true := by decide
/-- R84 -/
theorem test_sll_by_33 : regPc (step (core 0 1 33 0 [] 0x002091B3)) 3 2 4 = true := by decide
/-- R85 -/
theorem test_xor : regPc (step (core 0 0xF0F0F0F0 0x0FF00FF0 0 [] 0x0020C1B3)) 3 0xFF00FF00 4 = true := by decide
/-- R86 -/
theorem test_srl_zeros : regPc (step (core 0 0x80000000 31 0 [] 0x0020D1B3)) 3 1 4 = true := by decide
/-- V1.4, row 5 -/
theorem test_sra_copies : regPc (step (core 0 0x80000001 33 0 [] 0x4020D1B3)) 3 0xC0000000 4 = true := by decide
/-- R88 -/
theorem test_or : regPc (step (core 0 0xF0F0F0F0 0x0FF00FF0 0 [] 0x0020E1B3)) 3 0xFFF0FFF0 4 = true := by decide
/-- R89 -/
theorem test_and : regPc (step (core 0 0xF0F0F0F0 0x0FF00FF0 0 [] 0x0020F1B3)) 3 0x00F000F0 4 = true := by decide
/-- §2.3: the destination is the source, and the sum wraps. -/
theorem test_addi_wraps : regPc (step (core 0 0xFFFFFFFF 0 0 [] 0x00108093)) 1 0 4 = true := by decide
/-- V1.1 -/
theorem test_addi_x0 : regPc (step (core 0 0 0 0 [] 0x00500013)) 0 0 4 = true := by decide
/-- §2.4 -/
theorem test_lw_negative : regPc (step (core 0 0 8 0 [(4, 0x11), (5, 0x22), (6, 0x33), (7, 0x44)] 0xFFC12083)) 1
    0x44332211 4 = true := by decide
/-- §2.4: rd = x0 does not suppress the access. -/
theorem test_lw_x0_faults : after (step (core 0 0 0 0 [] 0x04002003)) (fun t =>
    t.fault == some (.outOfRange .dmem 64) && t.pc == 0) = true := by decide
/-- §2.4 -/
theorem test_sw_unaligned : dataBytes (step (core 0 0 0 0xDEADBEEF [] 0x003120A3)) 0
    [0x00, 0xEF, 0xBE, 0xAD, 0xDE, 0x00] = true := by decide
/-- §2.4: no partial write. -/
theorem test_sw_faults : after (step (core 0 0 64 1 [] 0xFE312EA3)) (fun t =>
    t.fault == some (.outOfRange .dmem 61) && t.dmem.cells == []) = true := by decide
/-- §2.5 -/
theorem test_beq_taken : regPc (step (core 0x2000 3 3 0 [] 0x80208063)) 0 0 0x1000 = true := by decide
/-- §2.5 -/
theorem test_beq_not_taken : regPc (step (core 0x2000 3 4 0 [] 0x80208063)) 0 0 0x2004 = true := by decide
/-- V1.5 -/
theorem test_bne_not_taken : regPc (step (core 0x10 7 7 0 [] 0xFE209CE3)) 0 0 0x14 = true := by decide
/-- R99 -/
theorem test_bne_taken : regPc (step (core 0x10 7 8 0 [] 0xFE209CE3)) 0 0 0x08 = true := by decide
/-- V1.6 -/
theorem test_halt : after (step (core 0x24 0 0 0 [] 0x0000006F)) (fun t => t.runState == .halted) = true := by decide
/-- §2.6 -/
theorem test_jal_links : regPc (step (core 0x100 0 0 0 [] 0x010000EF)) 1 0x104 0x110 = true := by decide
/-- §2.6: `jal x1, 0` is not a halt. -/
theorem test_jal_self : after (step (core 0x10 0 0 0 [] 0x000000EF)) (fun t =>
    t.runState == .running && readReg t 1 == 0x14 && t.pc == 0x10) = true := by decide
/-- §2.7: the target uses the old x1, and bit 0 is cleared. -/
theorem test_jalr_old_base : regPc (step (core 0x20 0x101 0 0 [] 0x000080E7)) 1 0x24 0x100 = true := by decide
/-- §2.7 -/
theorem test_jalr_wraps : regPc (step (core 0x20 0 0 0 [] 0xFFF10067)) 0 0 0xFFFFFFFE = true := by decide
/-- §2.8 -/
theorem test_lui : regPc (step (core 0 0 0 0 [] 0x123450B7)) 1 0x12345000 4 = true := by decide
/-- §2.8 -/
theorem test_auipc_wraps : regPc (step (core 0x80000000 0 0 0 [] 0x80000097)) 1 0 0x80000004 = true := by decide

/-! ### The step around the instruction, memory, loader, ports -/

/-- §2.9 -/
theorem test_fetch_out_of_range : after (step (base 253 0 0 0 [])) (fun t =>
    t.fault == some (.outOfRange .imem 253) && t.pc == 253) = true := by decide
/-- §2.2 -/
theorem test_illegal_step : after (step (core 0 0 0 0 [] 0x0020C063)) (fun t =>
    t.runState == .illegal 0 0x0020C063 && t.pc == 0) = true := by decide
/-- §2.2 -/
theorem test_rtype_lenient : regPc (step (coreUnder .lenient .refuse 0xF0 0x3C 0x4020F1B3)) 3 0x30 4 = true := by decide
/-- §2.2 -/
theorem test_jalr_ignore : regPc (step (coreUnder .refuse .ignore 0 0x100 0x004110E7)) 1 4 0x104 = true := by decide
/-- §2.2 -/
theorem test_jalr_refuse : step (core 0 0 0x100 0 [] 0x004110E7) = .refused (.unsettledWord 0 0x004110E7) := by rfl
/-- V1.8 -/
theorem test_diagnostic : stepDiagnostic (core 0 0x12345678 16 0 [] 0x00112323) = some ⟨.store, 0x16⟩ := by decide
/-- R48: overlapping stores. -/
theorem test_overlapping_stores :
    ((Memory.putWord (Memory.putWord ⟨64, []⟩ 0 0x11223344) 2 0xAABBCCDD).loadU32 0) = some 0xCCDD3344 := by decide
/-- Hand-worked from the canonical form: a stored 0 removes the cell. -/
theorem test_store_zero_removes : Memory.putWord ⟨64, [(8, 5)]⟩ 8 0 = ⟨64, []⟩ := by decide
/-- R36, R124 -/
theorem test_load_program : (match loadProgram (State.launch (params [])) [0x00500293, 0x0000006F] with
    | .ok t => t.imem.loadU32 4 == some 0x0000006F && readByte t .imem 1 == some 0x02
    | .error _ => false) = true := by decide
/-- R36, R129: a first step that is refused closes the loader too, and its repetition changes nothing (R28). -/
theorem test_refused_step_closes_loader : (match writeWordAtIndex (Harness.mk (core 0 0 0 0 [] 0x004110E7) 0 []).call.core
    0 0x0000006F with
    | .ok _ => false
    | .error e => e == .refused) = true := by decide
theorem test_repeated_refusal : (Harness.mk marked 0 []).call.core = marked := by decide
/-- R126: a run of no calls, and one that stops at its first call. -/
theorem test_run_ends : (run 0 ⟨core 0 0 0 0 [] 0x0000006F, 0, []⟩).1 = .stepLimitExceeded 0 ∧
    (run 3 ⟨core 0 0 0 0 [] 0x0000006F, 0, []⟩).1 = .halted := by decide
/-- R39 -/
theorem test_step_cycle : (match cycle (params []) ⟨false, true, true, 0, 0, 5, 0, 0⟩ (core 0 0 0 0 [] 0x00500293) with
    | .ok (_, out) => out.outcome == some 0 && out.nextPc == some 4 && out.ldErr && out.dbgRegData == 5
    | .error _ => false) = true := by decide
/-- R37 -/
theorem test_tracer_window : traceWindow (State.launch (params [(62, 7)])) .dmem 62 3 = [some 7, some 0, none] := by
  decide

/-! ### Witnesses: states and operands that meet each statement's hypotheses, a clause at a time -/

/-- A state in which lw x1, 0(x2) with x2 = 60 fits exactly (§2.4). -/
def fits : State := core 0 0 60 7 [(60, 1)] 0x00012083
/-- A state in which it does not, by one byte, and is unaligned (§2.4). -/
def tooFar : State := core 0 0 61 7 [] 0x00012083
/-- A core whose fetch does not fit (§2.9). -/
def noFetch : State := base 253 0 0 0 []
/-- The same cores with a latched fault, halted, and Illegal. -/
def faulted : State := latchFault tooFar (.outOfRange .dmem 61)
def halted : State := enterHalted (core 0 0 0 0 [] 0x0000006F)
def stopped : State := takeIllegal (core 0 0 0 0 [] 0) 0

theorem witness_DecodeOfEncodeIsTheInstruction :
    (Instr.jal 0 0x100000).wellFormed = true ∧ (Instr.beq 31 0 0x1000).wellFormed = true ∧
    Instr.halt.wellFormed = true := by decide

theorem witness_EncodeOfDecodeIsTheWord : decode 0xFE209CE3 = .instr (.bne 1 2 0x1FF8) := by decide

theorem witness_EncodingsMatchTheOpcodeTable :
    (Instr.jal 1 8).wellFormed = true ∧ Instr.halt.wellFormed = true ∧
    encode .halt &&& (tableRow (.jal 1 8)).mask = (tableRow (.jal 1 8)).pattern ∧
    encode (.add 31 31 31) &&& (tableRow (.add 0 0 0)).mask = (tableRow (.add 0 0 0)).pattern := by decide

theorem may_core (pc x1 x2 x3 : Word) (dm : List Host.Cell) (w : Word) : MayStep (core pc x1 x2 x3 dm w) :=
  ⟨rfl, rfl, rfl⟩

theorem may_coreUnder (r : RtypeFunct7Policy) (j : JalrFunct3Policy) (x1 x2 w : Word) : MayStep (coreUnder r j x1 x2 w) :=
  ⟨rfl, rfl, rfl⟩

theorem witness_IllegalWordsAreThoseListed :
    (MayStep (core 0 0 0 0 [] 0x00000073) ∧ fetch (core 0 0 0 0 [] 0x00000073) = .ok 0x00000073 ∧
      IllegalByRule 0x00000073) ∧
    IllegalByRule 0x0020A1B3 ∧ IllegalByRule 0x022081B3 ∧ IllegalByRule 0x00101013 ∧ IllegalByRule 0x00000083 ∧
    IllegalByRule 0x00000023 ∧ IllegalByRule 0x0020C063 := by
  refine ⟨⟨may_core .., rfl, .inl (by decide)⟩, .inr (.inl (by decide)), .inr (.inr (.inl (by decide))),
    .inr (.inr (.inr (.inl (by decide)))), .inr (.inr (.inr (.inr (.inl (by decide))))),
    .inr (.inr (.inr (.inr (.inr (.inl (by decide)))))), .inr (.inr (.inr (.inr (.inr (.inr (by decide))))))⟩

theorem witness_UnsettledWordsFollowTheirPolicy :
    (∀ r, MayStep (coreUnder r .refuse 0xF0 0x0F 0x0220C1B3) ∧
      fetch (coreUnder r .refuse 0xF0 0x0F 0x0220C1B3) = .ok 0x0220C1B3 ∧
      (coreUnder r .refuse 0xF0 0x0F 0x0220C1B3).config.rtypePolicy = r) ∧
    RtypeUnsettled 0x0220C1B3 ∧ RtypeUnsettled 0x4020F1B3 ∧ RtypeUnsettled 0x022091B3 ∧ RtypeUnsettled 0x0220E1B3 ∧
    (∀ j, MayStep (coreUnder .refuse j 0 0x100 0x004110E7) ∧
      fetch (coreUnder .refuse j 0 0x100 0x004110E7) = .ok 0x004110E7 ∧
      (coreUnder .refuse j 0 0x100 0x004110E7).config.jalrPolicy = j) ∧
    JalrUnsettled 0x004110E7 ∧
    step (coreUnder .refuse .refuse 0 0x100 0x004110E7) = .refused (.unsettledWord 0 0x004110E7) ∧
    step marked = .refused (.unsettledWord 0 0x004110E7) := by
  refine ⟨fun r => ⟨may_coreUnder .., by cases r <;> rfl, rfl⟩, ?_, ?_, ?_, ?_, fun j => ⟨may_coreUnder .., by cases j <;> rfl, rfl⟩, ?_, rfl, rfl⟩
  · unfold RtypeUnsettled; decide
  · unfold RtypeUnsettled; decide
  · unfold RtypeUnsettled; decide
  · unfold RtypeUnsettled; decide
  · unfold JalrUnsettled; decide

theorem witness_ExtractBitsReadsTheField :
    (31 ≤ 31 ∧ 0 ≤ 31 ∧ extractBits 0x80000001 31 0 = some 0x80000001) ∧ extractBits 0x80000001 31 31 = some 1 ∧
    extractBits 0x80000001 0 0 = some 1 ∧ extractBits 0 32 0 = none ∧ extractBits 0 4 5 = none := by decide

theorem witness_SignExtendReplicatesTheTopBit :
    signExtendBits 0xFFFFFFFE 1 = some 0 ∧ signExtendBits 0x7FFFFFFF 32 = some 0x7FFFFFFF ∧
    signExtendBits 0x40000000 31 = some 0xC0000000 ∧ signExtendBits 1 0 = none ∧ signExtendBits 1 33 = none := by decide

theorem witness_AddSubResults :
    0x002081B3#32 &&& 0xFE00707F = 0x00000033 ∧ 0x402081B3#32 &&& 0xFE00707F = 0x40000033 ∧
    (0x022081B3#32).extractLsb' 0 7 = 0x33#7 ∧ (0x022081B3#32).extractLsb' 12 3 = 0#3 ∧
    (0x022081B3#32).extractLsb' 25 7 ≠ 0x00 ∧ (0x022081B3#32).extractLsb' 25 7 ≠ 0x20 := by decide

theorem witness_ShiftResults :
    0x002091B3#32 &&& 0xFE00707F = 0x00001033 ∧ 0x0020D1B3#32 &&& 0xFE00707F = 0x00005033 ∧
    0x4020D1B3#32 &&& 0xFE00707F = 0x40005033 ∧
    ((0x022091B3#32).extractLsb' 0 7 = 0x33#7 ∧ (0x022091B3#32).extractLsb' 12 3 = 1#3 ∧
      (0x022091B3#32).extractLsb' 25 7 ≠ 0) ∧
    (0x0220D1B3#32).extractLsb' 0 7 = 0x33#7 ∧ (0x0220D1B3#32).extractLsb' 12 3 = 5#3 ∧
    (0x0220D1B3#32).extractLsb' 25 7 ≠ 0x00 ∧ (0x0220D1B3#32).extractLsb' 25 7 ≠ 0x20 := by decide

theorem witness_LogicResults :
    0x0020C1B3#32 &&& 0xFE00707F = 0x00004033 ∧ 0x0020E1B3#32 &&& 0xFE00707F = 0x00006033 ∧
    0x0020F1B3#32 &&& 0xFE00707F = 0x00007033 ∧
    ((0x0220C1B3#32).extractLsb' 0 7 = 0x33#7 ∧ (0x0220C1B3#32).extractLsb' 12 3 = 4#3 ∧
      (0x0220C1B3#32).extractLsb' 25 7 ≠ 0) ∧
    ((0x0220E1B3#32).extractLsb' 0 7 = 0x33#7 ∧ (0x0220E1B3#32).extractLsb' 12 3 = 6#3 ∧
      (0x0220E1B3#32).extractLsb' 25 7 ≠ 0) ∧
    (0x4020F1B3#32).extractLsb' 0 7 = 0x33#7 ∧ (0x4020F1B3#32).extractLsb' 12 3 = 7#3 ∧
    (0x4020F1B3#32).extractLsb' 25 7 ≠ 0 := by decide

theorem witness_AddiResult :
    0x00500293#32 &&& 0x0000707F = 0x00000013 ∧ (0x00101013#32).extractLsb' 0 7 = 0x13#7 ∧
    (0x00101013#32).extractLsb' 12 3 ∉ [0#3] := by decide

theorem witness_MemoryPrimitivesAreLittleEndian :
    (60#32).toNat + 4 ≤ fits.dmem.size ∧ fits.dmem.size < (61#32).toNat + 4 ∧ fits.dmem.wf = true ∧
    (base 252 0 0 0 []).pc.toNat + 4 ≤ (base 252 0 0 0 []).imem.size ∧ noFetch.imem.size < noFetch.pc.toNat + 4 ∧
    tooFar.dmem.size < (effectiveAddress tooFar 2 0).toNat + 4 ∧
    after (exec (.lw 1 2 0) fits) (fun t => readReg t 1 == 1) = true := by decide

theorem witness_StoreThenLoadReturnsTheWord :
    fits.dmem.wf = true ∧ (60#32).toNat + 4 ≤ fits.dmem.size ∧ (1#32).toNat + 4 ≤ fits.dmem.size := by decide

theorem witness_LwResult :
    (effectiveAddress fits 2 0).toNat + 4 ≤ fits.dmem.size ∧ tooFar.dmem.size < (effectiveAddress tooFar 2 0).toNat + 4 ∧
    0x00012083#32 &&& 0x0000707F = 0x00002003 ∧ (0x00000083#32).extractLsb' 0 7 = 0x03#7 ∧
    (0x00000083#32).extractLsb' 12 3 ∉ [2#3] := by decide

theorem witness_SwResult :
    fits.dmem.wf = true ∧ (effectiveAddress fits 2 0).toNat + 4 ≤ fits.dmem.size ∧
    tooFar.dmem.size < (effectiveAddress tooFar 2 0).toNat + 4 ∧ 0xFE312E23#32 &&& 0x0000707F = 0x00002023 ∧
    (0x00000023#32).extractLsb' 0 7 = 0x23#7 ∧ (0x00000023#32).extractLsb' 12 3 ∉ [2#3] := by decide

theorem witness_DiagnosticExactlyOnUnalignedAccess :
    stepDiagnostic tooFar = some ⟨.load, 61⟩ ∧ tooFar.dmem.size < (61#32).toNat + 4 ∧
    stepDiagnostic (core 0 0 59 0 [] 0x00012083) = some ⟨.load, 59⟩ ∧
    (59#32).toNat + 4 ≤ (core 0 0 59 0 [] 0x00012083).dmem.size := by decide

theorem witness_BranchResults :
    0x80208063#32 &&& 0x0000707F = 0x00000063 ∧ 0xFE209CE3#32 &&& 0x0000707F = 0x00001063 ∧
    (0x0020C063#32).extractLsb' 0 7 = 0x63#7 ∧ (0x0020C063#32).extractLsb' 12 3 ∉ [0#3, 1#3] := by decide

theorem witness_JalResult :
    ¬ ((1 : Reg) = 0 ∧ (0 : BitVec 21) = 0) ∧ ¬ ((0 : Reg) = 0 ∧ (0x1FFFFC : BitVec 21) = 0) ∧
    0x0000106F#32 &&& 0x0000007F = 0x0000006F ∧ 0x0000106F#32 ≠ 0x0000006F := by decide

theorem witness_HaltWordHalts :
    MayStep (core 0x24 0 0 0 [] 0x0000006F) ∧ fetch (core 0x24 0 0 0 [] 0x0000006F) = .ok 0x0000006F ∧
    ∃ t, step (core 0x24 0 0 0 [] 0x0000006F) = .next t ∧ t.runState = .halted :=
  ⟨may_core .., rfl, _, rfl, rfl⟩

theorem witness_JalrResult :
    0x004100E7#32 &&& 0x0000707F = 0x00000067 ∧ JalrUnsettled 0x004110E7 := by
  unfold JalrUnsettled; decide

theorem witness_UpperImmediateResults :
    0x123450B7#32 &&& 0x0000007F = 0x00000037 ∧ 0x00001097#32 &&& 0x0000007F = 0x00000017 := by decide

theorem witness_StepRunsTheDecodedInstruction :
    MayStep (core 0x10 0 0 0 [] 0x00500293) ∧
    FourBytes (core 0x10 0 0 0 [] 0x00500293) .imem 0x10 0x93 0x02 0x50 0x00 ∧
    decodeBytes [0x93, 0x02, 0x50, 0x00] = .ok (.addi 5 0 5, []) :=
  ⟨may_core .., ⟨rfl, rfl, rfl, rfl⟩, rfl⟩

theorem witness_FetchReadsFourBytesOrFaults :
    (base 252 0 0 0 []).pc.toNat + 4 ≤ (base 252 0 0 0 []).imem.size ∧ MayStep noFetch ∧
    noFetch.imem.size < noFetch.pc.toNat + 4 ∧
    fetch (core 2 0 0 0 [] 0x00700093) = .ok 0x00700093 ∧
    dispatch (core 2 0 0 0 [] 0x00700093).config 0x00700093 = .execute (.addi 1 0 7) :=
  ⟨by decide, ⟨rfl, rfl, rfl⟩, by decide, rfl, rfl⟩

theorem witness_IllegalStepIsTerminal :
    MayStep (core 0 0 0 0 [] 0) ∧ fetch (core 0 0 0 0 [] 0) = .ok 0 ∧
    dispatch (core 0 0 0 0 [] 0).config 0 = .illegal ∧ ∃ t, step (core 0 0 0 0 [] 0) = .next t :=
  ⟨may_core .., rfl, rfl, _, rfl⟩

theorem witness_TerminalStatesHaveNoStep :
    (¬ MayStep halted ∧ step halted = .next halted ∧ halted.refusedMark = none) ∧
    (¬ MayStep stopped ∧ step stopped = .next stopped) ∧ ¬ MayStep faulted ∧
    ¬ MayStep marked ∧ marked.refusedMark = some ⟨0, 0x004110E7⟩ := by
  refine ⟨⟨?_, rfl, rfl⟩, ⟨?_, rfl⟩, ?_, ?_, rfl⟩ <;> rintro ⟨h1, h2, h3⟩ <;>
    first | exact absurd h1 (by decide) | exact absurd h2 (by decide) | exact absurd h3 (by decide)

theorem witness_FaultingStepChangesNothingElse :
    (MayStep tooFar ∧ ∃ t, step tooFar = .next t ∧ t.fault = some (.outOfRange .dmem 61)) ∧
    (MayStep noFetch ∧ ∃ t, step noFetch = .next t ∧ t.fault = some (.outOfRange .imem 253)) ∧
    faulted.fault = some (.outOfRange .dmem 61) :=
  ⟨⟨may_core .., _, rfl, rfl⟩, ⟨⟨rfl, rfl, rfl⟩, _, rfl, rfl⟩, rfl⟩

theorem witness_StepOutcomesHaveThePriority :
    (MayStep noFetch ∧ noFetch.imem.size < noFetch.pc.toNat + 4) ∧
    (fetch stopped = .ok 0 ∧ dispatch stopped.config 0 = .illegal) ∧
    (fetch marked = .ok 0x004110E7 ∧ dispatch marked.config 0x004110E7 = .refuse) ∧
    (fetch halted = .ok 0x0000006F ∧ dispatch halted.config 0x0000006F = .execute .halt) ∧
    (MayStep tooFar ∧ fetch tooFar = .ok 0x00012083 ∧ dispatch tooFar.config 0x00012083 = .execute (.lw 1 2 0) ∧
      tooFar.dmem.size < (effectiveAddress tooFar 2 0).toNat + 4) ∧
    (MayStep fits ∧ fetch fits = .ok 0x00012083 ∧ dispatch fits.config 0x00012083 = .execute (.lw 1 2 0) ∧
      Instr.lw 1 2 0 ≠ .halt ∧ (effectiveAddress fits 2 0).toNat + 4 ≤ fits.dmem.size) :=
  ⟨⟨⟨rfl, rfl, rfl⟩, by decide⟩, ⟨rfl, rfl⟩, ⟨rfl, rfl⟩, ⟨rfl, rfl⟩, ⟨may_core .., rfl, rfl, by decide⟩,
    ⟨may_core .., rfl, rfl, by decide, by decide⟩⟩

/-- A step that stores: sw x3, 0(x2). -/
def storing : State := core 0 0 60 7 [] 0x00312023

theorem witness_InstructionMemoryNeverChanges : ∃ t, step storing = .next t := ⟨_, rfl⟩

theorem witness_OnlySwChangesDataMemory :
    ∃ t, step storing = .next t ∧ readByte t .dmem 60 ≠ readByte storing .dmem 60 :=
  ⟨_, rfl, by decide⟩

theorem witness_StepWritesAtMostRd :
    (∃ t, step (core 0 1 2 0 [] 0x002081B3) = .next t ∧ fetch (core 0 1 2 0 [] 0x002081B3) = .ok 0x002081B3 ∧
      (5 : Reg) ≠ (0x002081B3#32).extractLsb' 7 5) ∧
    ∃ t f, step noFetch = .next t ∧ fetch noFetch = .error f :=
  ⟨⟨_, rfl, rfl, by decide⟩, _, _, rfl, rfl⟩

theorem witness_ConfigurationIsFixedAndSwitchesAreInert : ∃ t, step tooFar = .next t := ⟨_, rfl⟩

theorem witness_RegisterFileReadsAndWrites :
    readIndex fits 32 = .error (.invalidRegister 32) ∧ readIndex fits 31 = .ok 0 ∧
    ∃ t, writeIndex fits 31 9 = .ok t ∧ readIndex t 31 = .ok 9 ∧ readIndex t 30 = readIndex fits 30 :=
  ⟨rfl, rfl, _, rfl, rfl, rfl⟩

theorem witness_NoStepRaisesInvalidRegister : MayStep tooFar ∧ ∃ t, step tooFar = .next t := ⟨may_core .., _, rfl⟩

/-- A program loaded from outside. -/
def loaded : Except LoaderError State := loadProgram (State.launch (params [])) [0x00500293, 0x0000006F]

theorem witness_ResetState :
    (∃ t, loaded = .ok t) ∧ [0x00500293#32, 0x0000006F][1]? = some 0x0000006F ∧ 2 * 4 ≤ 8 ∧ (30 : Nat) < 31 ∧
    launchByte [(3, 1), (3, 2)] 3 = 2 ∧ (PortIn.mk true true false 0 0 0 0 0).rst = true :=
  ⟨⟨_, rfl⟩, by decide, by decide, by decide, by decide, rfl⟩

theorem witness_LaunchAndLoadMeetTheInvariant : (params []).valid = true ∧ ∃ t, loaded = .ok t := ⟨by decide, _, rfl⟩

/-- Both memories of a small core are canonical and its pc is even. -/
theorem fits_inv : fits.Inv := by
  refine ⟨⟨by decide, by decide, by decide, by decide⟩, fun _ => by decide, fun pc w h => ?_, fun f h => ?_⟩
  · cases h
  · cases h

theorem witness_StepKeepsTheInvariant : fits.Inv ∧ ∃ t, step fits = .next t := ⟨fits_inv, _, rfl⟩

theorem witness_RunKeepsTheInvariant : (Harness.mk fits 0 []).core.Inv := fits_inv

theorem witness_CanonicalMemoriesAreDeterminedByTheirBytes :
    (Memory.mk 64 [(3, 7)]).wf = true ∧ (Memory.construct 64 [(3, 1), (3, 7)]).wf = true ∧
    ∀ a, (Memory.mk 64 [(3, 7)]).byte? a = (Memory.construct 64 [(3, 1), (3, 7)]).byte? a :=
  ⟨by decide, by decide, fun _ => rfl⟩

theorem witness_LoaderWritesBeforeTheFirstStepOnly :
    (State.launch (params [])).imem.wf = true ∧ (State.launch (params [])).loaderOpen = true ∧
    63 * 4 + 4 ≤ (State.launch (params [])).imem.size ∧ (State.launch (params [])).imem.size < 64 * 4 + 4 ∧
    (MayStep fits ∧ ∃ t, step fits = .next t ∧ t.loaderOpen = false ∧ ∃ u, step t = .next u) ∧
    (MayStep (core 0 0 0 0 [] 0x004110E7) ∧ (core 0 0 0 0 [] 0x004110E7).loaderOpen = true ∧
      step (core 0 0 0 0 [] 0x004110E7) = .refused (.unsettledWord 0 0x004110E7)) ∧
    (∃ t, loaded = .ok t) ∧
    ∃ t, exec (.sw 3 2 0) storing = .next t :=
  ⟨by decide, rfl, by decide, by decide, ⟨may_core .., _, rfl, rfl, _, rfl⟩, ⟨may_core .., rfl, rfl⟩, ⟨_, rfl⟩, _, rfl⟩

theorem witness_LoadingGivesCleanLaunch :
    [0x00500293#32, 0x0000006F].length * 4 ≤ (params []).imemSize ∧
    (params []).imemSize < (List.replicate 65 0x00500293#32).length * 4 := by decide

theorem witness_RunStopsAtTheFirstNonContinue : 0 < 1 ∧ callEnd ⟨fits, 0, []⟩ = none ∧
    callEnd ⟨halted, 0, []⟩ = some .halted := by decide

theorem witness_RunEndIsTheFinalState :
    (run 1 ⟨fits, 0, []⟩).1 = .stepLimitExceeded 1 ∧ (run 1 ⟨tooFar, 0, []⟩).1 = .faulted (.outOfRange .dmem 61) ∧
    (run 1 ⟨stopped, 0, []⟩).1 = .illegal 0 0 ∧ (run 1 ⟨halted, 0, []⟩).1 = .halted ∧
    (run 1 ⟨marked, 0, []⟩).1 = .refused (.unsettledWord 0 0x004110E7) := by decide

theorem witness_StepPortsRepeatTheTerminalOutcome :
    ∃ t out, cycle (params []) ⟨false, true, true, 0, 0, 0, 0, 0⟩ tooFar = .ok (t, out) ∧ ¬ MayStep t :=
  ⟨_, _, rfl, fun h => absurd h.2.1 (by decide)⟩

end Sys2Proof.Tests
end

section
/-! PROOF. What a step that answers a state can do (R28, R33), and what every instruction and every step keeps: the
facts the statements about the state are assembled from. -/

namespace Sys2Proof.Proofs

open Sys2Proof.Machine Sys2Proof.Claims

/-! ### The states a step answers -/

theorem mayStep_iff {s : State} : MayStep s ↔ canStep s = true := (canStep_iff s).symm

theorem canStep_eq_false {s : State} : canStep s = false ↔ ¬ MayStep s := by simp [mayStep_iff]

/-- A core with a latched fault has no step (R28). -/
theorem canStep_of_fault {s : State} {f : Fault} (h : s.fault = some f) : canStep s = false := by
  simp [canStep, h]

/-- The states a step can answer, and when: a refusal answers none, so it is no case here. -/
inductive NextShape (s : State) : State → Prop
  /-- There is no step (R28). -/
  | unchanged (hno : canStep s = false) (hmark : s.refusedMark = none) (hfault : s.fault = none) : NextShape s s
  /-- The fetch faulted (R50). -/
  | fetchFault (hc : MayStep s) (hr : s.imem.size < s.pc.toNat + 4) :
      NextShape s (latchFault (closeLoader s) (.outOfRange .imem s.pc))
  /-- The word is IllegalInstruction (R107). -/
  | illegal (hc : MayStep s) (w : Word) (hw : fetch s = .ok w) (hd : dispatch s.config w = .illegal) :
      NextShape s (takeIllegal (closeLoader s) w)
  /-- The word's instruction ran (R33). -/
  | ran (hc : MayStep s) (w : Word) (i : Instr) {t : State} (hw : fetch s = .ok w)
      (hd : dispatch s.config w = .execute i) (ht : exec i (closeLoader s) = .next t) : NextShape s t

/-- All that repeating a terminal outcome can answer (R27, R28). -/
theorem repeatTerminal_cases (s : State) :
    (∃ m, s.refusedMark = some m ∧ repeatTerminal s = .refused (.unsettledWord m.pc m.word)) ∨
    (∃ f, s.refusedMark = none ∧ s.fault = some f ∧ repeatTerminal s = .fault f) ∨
    (s.refusedMark = none ∧ s.fault = none ∧ repeatTerminal s = .next s) := by
  cases hm : s.refusedMark with
  | some m => exact .inl ⟨m, rfl, by simp [repeatTerminal, hm]⟩
  | none =>
    cases hf : s.fault with
    | some f => exact .inr (.inl ⟨f, rfl, rfl, by simp [repeatTerminal, hm, hf]⟩)
    | none => exact .inr (.inr ⟨rfl, rfl, by simp [repeatTerminal, hm, hf]⟩)

/-- A step that answers a state has one of four shapes. -/
theorem step_next_shape {s t : State} (h : step s = .next t) : NextShape s t := by
  cases step_shape_of h with
  | noStep hno hr =>
    rcases repeatTerminal_cases s with ⟨_, _, he⟩ | ⟨_, _, _, he⟩ | ⟨hm, hf, he⟩ <;> rw [he] at hr <;> cases hr
    exact .unchanged hno hm hf
  | fetchFault hc hs hr => cases hr; exact .fetchFault (mayStep_iff.2 hc) hs
  | illegal hc w hw hd hr => cases hr; exact .illegal (mayStep_iff.2 hc) w hw hd
  | refused _ _ _ _ hr => cases hr
  | ran hc w i hw hd hr => exact .ran (mayStep_iff.2 hc) w i hw hd hr

/-- A step answers a fault only where it repeats the one that is latched (R27; log 8). -/
theorem step_fault {s : State} {f : Fault} (h : step s = .fault f) :
    canStep s = false ∧ s.refusedMark = none ∧ s.fault = some f := by
  cases step_shape_of h with
  | noStep hno hr =>
    rcases repeatTerminal_cases s with ⟨_, _, he⟩ | ⟨g, hm, hf, he⟩ | ⟨_, _, he⟩ <;> rw [he] at hr <;> cases hr
    exact ⟨hno, hm, hf⟩
  | fetchFault _ _ hr => cases hr
  | illegal _ _ _ _ hr => cases hr
  | refused _ _ _ _ hr => cases hr
  | ran _ _ i _ _ hr =>
    obtain ⟨t, ht, _⟩ := exec_shape i (closeLoader s)
    rw [ht] at hr; cases hr

/-! ### What a step leaves unchanged -/

/-- A step changes neither instruction memory, nor the configuration, nor the mark (R31, R58; log 10). -/
theorem step_next_fixed {s t : State} (h : step s = .next t) :
    t.imem = s.imem ∧ t.config = s.config ∧ t.refusedMark = s.refusedMark := by
  cases step_next_shape h with
  | unchanged _ _ _ => simp
  | fetchFault _ _ => simp
  | illegal _ _ _ _ => simp
  | ran _ _ _ _ _ ht =>
    obtain ⟨himem, hconfig, _, hmark⟩ := exec_fixed ht
    exact ⟨himem, hconfig, hmark⟩

/-- A step that answers a state leaves no Refused mark (R28; log 10). -/
theorem step_next_refusedMark {s t : State} (h : step s = .next t) : t.refusedMark = none := by
  rw [(step_next_fixed h).2.2]
  cases step_next_shape h with
  | unchanged _ hmark _ => exact hmark
  | fetchFault hc _ => exact hc.2.2
  | illegal hc _ _ _ => exact hc.2.2
  | ran hc _ _ _ _ _ => exact hc.2.2

/-- No instruction changes the capacity of data memory (R31). -/
theorem exec_dmem_size {i : Instr} {s t : State} (h : exec i s = .next t) : t.dmem.size = s.dmem.size := by
  cases exec_next_shape h <;> simp

/-- No step changes the capacity of data memory (R31). -/
theorem step_next_dmem_size {s t : State} (h : step s = .next t) : t.dmem.size = s.dmem.size := by
  cases step_next_shape h with
  | unchanged _ _ _ => rfl
  | fetchFault _ _ => rfl
  | illegal _ _ _ _ => rfl
  | ran _ _ _ _ _ ht => simpa using exec_dmem_size ht

/-- The only fault an instruction latches is a data access out of range, and the latch is its only effect (R108). -/
theorem exec_fault {i : Instr} {s t : State} {f : Fault} (h : exec i s = .next t) (hs : s.fault = none)
    (hf : t.fault = some f) :
    t = latchFault s f ∧ ∃ ea : Word, f = .outOfRange .dmem ea ∧ s.dmem.size < ea.toNat + 4 := by
  cases exec_next_shape h with
  | faulted r rs1 imm _ hr =>
    cases hf
    exact ⟨rfl, _, rfl, hr⟩
  | result rd v next _ _ => simp [hs] at hf
  | moved next _ => simp [hs] at hf
  | stored rs2 rs1 imm _ _ => simp [hs] at hf
  | halted _ => simp [hs] at hf

/-- The faults a step latches: OutOfRange of its fetch or of a data access. The latch and the closed loader interface
are its only effects (R12, R27, R50, R108; log 12). -/
theorem step_latches {s t : State} {f : Fault} (hc : MayStep s) (h : step s = .next t) (hf : t.fault = some f) :
    t = latchFault (closeLoader s) f ∧
      ((f = .outOfRange .imem s.pc ∧ s.imem.size < s.pc.toNat + 4) ∨
        ∃ ea : Word, f = .outOfRange .dmem ea ∧ s.dmem.size < ea.toNat + 4) := by
  obtain ⟨hrun, hnone, hmark⟩ := hc
  cases step_next_shape h with
  | unchanged _ _ _ => simp [hnone] at hf
  | fetchFault _ hr =>
    cases hf
    exact ⟨rfl, .inl ⟨rfl, hr⟩⟩
  | illegal _ w _ _ => simp [hnone] at hf
  | ran _ w i _ _ ht =>
    obtain ⟨he, hea⟩ := exec_fault ht hnone hf
    exact ⟨he, .inr hea⟩

/-- No instruction answers an Illegal run state: that is the verdict's, before any instruction runs (R111). -/
theorem exec_runState {i : Instr} {s t : State} (h : exec i s = .next t) :
    t.runState = s.runState ∨ t.runState = .halted := by
  cases exec_next_shape h <;> simp

end Sys2Proof.Proofs
end

section
/-! PROOF. Every step keeps the invariant of the engine: each of its three parts has a lemma of its own. -/

namespace Sys2Proof.Proofs

open Sys2Proof.Machine Sys2Proof.Claims

/-! ### The memories -/

/-- An instruction keeps both memories canonical and bounded: the one write is a store in range (R42, R44). -/
theorem exec_memoriesWf {i : Instr} {s t : State} (h : exec i s = .next t) (hs : s.memoriesWf) : t.memoriesWf := by
  obtain ⟨himem, hdmem, hisize, hdsize⟩ := hs
  cases exec_next_shape h with
  | stored rs2 rs1 imm _ hr => exact ⟨himem, putWord_wf hdmem hr _, hisize, hdsize⟩
  | _ => simpa [State.memoriesWf] using ⟨himem, hdmem, hisize, hdsize⟩

theorem step_memoriesWf {s t : State} (h : step s = .next t) (hs : s.memoriesWf) : t.memoriesWf := by
  cases step_next_shape h with
  | unchanged _ _ _ => exact hs
  | fetchFault _ _ => exact hs
  | illegal _ _ _ _ => exact hs
  | ran _ _ _ _ _ ht => exact exec_memoriesWf ht hs

/-! ### The pc -/

/-- A well-formed instruction leaves the pc even: it commits an even target, or leaves the pc as it was (R24). -/
theorem exec_pc_even {i : Instr} {s t : State} (h : exec i s = .next t) (hi : i.wellFormed = true)
    (hs : s.pc.getLsbD 0 = false) : t.pc.getLsbD 0 = false := by
  cases exec_next_shape h with
  | result rd v next _ heven => exact heven hi hs
  | moved next heven => exact heven hi hs
  | stored rs2 rs1 imm _ _ => exact pcPlus4_even hs
  | halted _ => exact hs
  | faulted r rs1 imm _ _ => exact hs

theorem step_pcEven {s t : State} (h : step s = .next t) (hs : s.pcEven) : t.pcEven := by
  have even_of_mayStep (hc : MayStep s) : s.pc.getLsbD 0 = false := hs (by rw [hc.1]; nofun)
  cases step_next_shape h with
  | unchanged _ _ _ => exact hs
  | fetchFault hc _ => exact fun _ => even_of_mayStep hc
  | illegal hc _ _ _ => exact fun _ => even_of_mayStep hc
  | ran hc _ _ _ hd ht => exact fun _ => exec_pc_even ht (dispatch_wellFormed hd) (even_of_mayStep hc)

/-! ### The records of a terminal state -/

/-- The Illegal state a step leaves records the pc and the word that the step fetched there (R107). -/
theorem step_illegal_record {s t : State} {pc w : Word} (hc : MayStep s) (h : step s = .next t)
    (ht : t.runState = .illegal pc w) : pc = t.pc ∧ fetch t = .ok w ∧ dispatch t.config w = .illegal := by
  have hrun : s.runState = .running := hc.1
  cases step_next_shape h with
  | unchanged _ _ _ => simp [hrun] at ht
  | fetchFault _ _ => simp [hrun] at ht
  | illegal _ v hv hd =>
    cases ht
    exact ⟨rfl, hv, hd⟩
  | ran _ _ _ _ _ he =>
    rcases exec_runState he with hr | hr <;> simp [hr, hrun] at ht

/-- A step of a core that may step leaves true records; a terminal core keeps those it has (R28). -/
theorem step_recordsTrue {s t : State} (h : step s = .next t) (hs : s.recordsTrue) : t.recordsTrue := by
  by_cases hc : MayStep s
  · refine ⟨fun pc w ht => step_illegal_record hc h ht, fun f hf => ?_⟩
    obtain ⟨rfl, hcause⟩ := step_latches hc h hf
    exact ⟨hc.1, hcause⟩
  · have hno := canStep_eq_false.2 hc
    rw [repeatTerminal_next ((step_noStep hno).symm.trans h)]
    exact hs

/-- Settles O41: each part of the invariant is kept by every step. -/
theorem stepKeepsTheInvariant : Obligations.StepKeepsTheInvariant := by
  rintro s t ⟨hmem, hpc, hrec⟩ h
  exact ⟨step_memoriesWf h hmem, step_pcEven h hpc, step_recordsTrue h hrec⟩

end Sys2Proof.Proofs
end

section
/-! PROOF. The statements about one step: terminal states, faults, the destination register, and the decoded
instruction. -/

namespace Sys2Proof.Proofs

open Sys2Proof.Machine Sys2Proof.Claims

/-! ### Terminal states -/

/-- A step that is not taken emits no diagnostic (R34). -/
theorem stepDiagnostic_noStep {s : State} (h : canStep s = false) : stepDiagnostic s = none := by
  simp [stepDiagnostic, h]

/-- A latched fault is the outcome its state stands for (R27). -/
theorem stateOutcome_fault {s : State} {f : Fault} (h : s.fault = some f) : stateOutcome s = .fault f := by
  simp [stateOutcome, h]

/-- A terminal core with no Refused mark reports the outcome its state stands for (R28). -/
theorem outcomeOf_repeatTerminal {s : State} (h : s.refusedMark = none) :
    outcomeOf (repeatTerminal s) = stateOutcome s := by
  rcases repeatTerminal_cases s with ⟨m, hm, _⟩ | ⟨f, _, hf, he⟩ | ⟨_, _, he⟩
  · rw [h] at hm; cases hm
  · rw [he, stateOutcome_fault hf]; rfl
  · rw [he]; rfl

/-- A marked core repeats its refusal (R28, R74; log 10). -/
theorem repeatTerminal_marked {s : State} {m : RefusedWord} (h : s.refusedMark = some m) :
    repeatTerminal s = .refused (.unsettledWord m.pc m.word) := by
  simp [repeatTerminal, h]

/-- Settles O29: where there is no step, `step` is `repeatTerminal`, which changes nothing. -/
theorem terminalStatesHaveNoStep : Obligations.TerminalStatesHaveNoStep := by
  intro s hs
  have hno : canStep s = false := canStep_eq_false.2 hs
  refine ⟨fun t ht => ?_, coreAfter_noStep hno, stepDiagnostic_noStep hno, fun hm => ?_, fun m hm => ?_⟩
  · exact repeatTerminal_next ((step_noStep hno).symm.trans ht)
  · rw [step_noStep hno, outcomeOf_repeatTerminal hm]
  · rw [step_noStep hno, repeatTerminal_marked hm]

/-! ### Faults -/

/-- A core with a latched fault and no Refused mark answers the fault (R27; log 8). -/
theorem step_of_fault {s : State} {f : Fault} (hm : s.refusedMark = none) (hf : s.fault = some f) :
    step s = .fault f := by
  rw [step_noStep (canStep_of_fault hf)]
  simp [repeatTerminal, hm, hf]

/-- Settles O30: the state after the step is the old one with its loader closed and the fault latched. -/
theorem faultingStepChangesNothingElse : Obligations.FaultingStepChangesNothingElse := by
  refine ⟨fun s t f hc h hf => ?_, fun s f hf => ?_⟩
  · obtain ⟨rfl, _⟩ := step_latches hc h hf
    obtain ⟨hrun, _, hmark⟩ := hc
    refine ⟨fun r => by simp, by simp, by simp, by simp, by simpa using hrun, by simpa using hmark, by simp, ?_, ?_⟩
    · rw [h]; exact stateOutcome_fault hf
    · exact step_of_fault (by simpa using hmark) hf
  · rw [coreAfter_noStep (canStep_of_fault hf), hf]

/-- Settles O37: the faults a step latches are OutOfRange (R18). -/
theorem noStepRaisesInvalidRegister : Obligations.NoStepRaisesInvalidRegister := by
  intro s t k hc h hf
  obtain ⟨_, ⟨hfetch, _⟩ | ⟨ea, hdata, _⟩⟩ := step_latches hc h hf
  · cases hfetch
  · cases hdata

/-! ### The destination register -/

/-- An instruction a word is executed as has no destination register, or the one its rd field names (R70). -/
theorem dispatch_rd {c : Config} {w : Word} {i : Instr} (h : dispatch c w = .execute i) :
    i.rd? = none ∨ i.rd? = some (rdOf w) :=
  dispatch_all (P := fun i => i.rd? = none ∨ i.rd? = some (rdOf w)) (decode_all_rd w) h

/-- Settles O34: only an instruction that runs changes a register, and only its destination. -/
theorem stepWritesAtMostRd : Obligations.StepWritesAtMostRd := by
  intro s t h
  cases step_next_shape h with
  | unchanged _ _ _ => exact ⟨fun _ _ _ _ => rfl, fun _ _ => rfl⟩
  | fetchFault _ _ => exact ⟨fun _ _ _ _ => rfl, fun _ _ => rfl⟩
  | illegal _ _ _ _ => exact ⟨fun _ _ _ _ => rfl, fun _ _ => rfl⟩
  | ran _ v i hv hd ht =>
    refine ⟨fun w hw r hr => ?_, fun ⟨f, hf⟩ => ?_⟩
    · have hvw : v = w := Except.ok.inj (hv.symm.trans hw)
      subst hvw
      have hrd : i.rd? ≠ some r := by
        rcases dispatch_rd hd with he | he <;> rw [he]
        · nofun
        · exact fun heq => hr (Option.some.inj heq).symm
      simpa using exec_other_regs ht hrd
    · rw [hv] at hf; cases hf

/-! ### The decoded instruction -/

/-- The byte at an address of a memory, where there is one. -/
theorem byte?_eq_some {m : Memory} {a : Nat} {b : Byte} : m.byte? a = some b ↔ a < m.size ∧ cellsGet m.cells a = b := by
  simp [Memory.byte?]

/-- A fetch answers the word of the four bytes at the pc (R43, R50). -/
theorem fetch_of_fourBytes {s : State} {b0 b1 b2 b3 : Byte} (h : FourBytes s .imem s.pc.toNat b0 b1 b2 b3) :
    fetch s = .ok (wordOfBytes b0 b1 b2 b3) := by
  simp only [FourBytes, readByte, byte?_eq_some] at h
  obtain ⟨⟨_, h0⟩, ⟨_, h1⟩, ⟨_, h2⟩, hlast, h3⟩ := h
  rcases loadU32_cases s.imem s.pc.toNat with ⟨_, he⟩ | ⟨hr, _⟩
  · simp [fetch, he, h0, h1, h2, h3]
  · omega

/-- A word that is an instruction is executed as it under every configuration (R72). -/
theorem dispatch_of_decode {w : Word} {i : Instr} (c : Config) (h : decode w = .instr i) :
    dispatch c w = .execute i := by
  simp [dispatch, h, Verdict.action]

/-- Settles O26: the bytes are the fetched word, and dispatch executes what it decodes to. -/
theorem stepRunsTheDecodedInstruction : Obligations.StepRunsTheDecodedInstruction := by
  intro s b0 b1 b2 b3 i hc hbytes hdec
  have hd : dispatch s.config (wordOfBytes b0 b1 b2 b3) = .execute i :=
    dispatch_of_decode s.config (decodeBytes_ok.1 hdec).1
  exact ⟨dispatch_wellFormed hd, step_ran (mayStep_iff.1 hc) (fetch_of_fourBytes hbytes) hd⟩

end Sys2Proof.Proofs
end

section
/-! PROOF. The configuration: fixed at construction, and its two diagnostic switches read by no instruction (R31). -/

namespace Sys2Proof.Proofs

open Sys2Proof.Machine Sys2Proof.Claims

section Switches

variable (warn trace : Bool) (s : State)

/-! ### The operations under other values of the switches -/

@[simp] theorem readReg_withSwitches (r : Reg) : readReg (withSwitches warn trace s) r = readReg s r := rfl

@[simp] theorem writeReg_withSwitches (rd : Reg) (v : Word) :
    writeReg (withSwitches warn trace s) rd v = withSwitches warn trace (writeReg s rd v) := by
  unfold writeReg; split <;> rfl

@[simp] theorem canStep_withSwitches : canStep (withSwitches warn trace s) = canStep s := rfl

@[simp] theorem fetch_withSwitches : fetch (withSwitches warn trace s) = fetch s := rfl

/-- Dispatch reads the two policies only (R74). -/
@[simp] theorem dispatch_withSwitches (w : Word) :
    dispatch (withSwitches warn trace s).config w = dispatch s.config w := by
  unfold dispatch; cases decode w <;> rfl

theorem repeatTerminal_withSwitches :
    repeatTerminal (withSwitches warn trace s) = mapState (withSwitches warn trace) (repeatTerminal s) := by
  rcases repeatTerminal_cases s with ⟨m, hm, he⟩ | ⟨f, hm, hf, he⟩ | ⟨hm, hf, he⟩ <;> rw [he]
  · exact repeatTerminal_marked hm
  · simp [repeatTerminal, withSwitches, mapState, hm, hf]
  · simp [repeatTerminal, withSwitches, mapState, hm, hf]

/-! ### The instructions -/

theorem finishWithResult_withSwitches (rd : Reg) (v : Word) :
    finishWithResult (withSwitches warn trace s) rd v = mapState (withSwitches warn trace) (finishWithResult s rd v) := by
  unfold finishWithResult; rw [writeReg_withSwitches]; rfl

theorem linkAndJump_withSwitches (rd : Reg) (target : Word) :
    linkAndJump rd target (withSwitches warn trace s) = mapState (withSwitches warn trace) (linkAndJump rd target s) := by
  unfold linkAndJump; rw [writeReg_withSwitches]; rfl

theorem execLw_withSwitches (rd rs1 : Reg) (imm : BitVec 12) :
    execLw rd rs1 imm (withSwitches warn trace s) = mapState (withSwitches warn trace) (execLw rd rs1 imm s) := by
  have hread : memRead (withSwitches warn trace s) (effectiveAddress (withSwitches warn trace s) rs1 imm) =
      memRead s (effectiveAddress s rs1 imm) := rfl
  unfold execLw
  rw [hread]
  cases memRead s (effectiveAddress s rs1 imm) with
  | ok v => exact finishWithResult_withSwitches warn trace s rd v
  | error f => rfl

theorem execSw_withSwitches (rs2 rs1 : Reg) (imm : BitVec 12) :
    execSw rs2 rs1 imm (withSwitches warn trace s) = mapState (withSwitches warn trace) (execSw rs2 rs1 imm s) := by
  have hea : effectiveAddress (withSwitches warn trace s) rs1 imm = effectiveAddress s rs1 imm := rfl
  have hdmem : (withSwitches warn trace s).dmem = s.dmem := rfl
  unfold execSw memWrite
  rw [hea, hdmem, readReg_withSwitches]
  cases s.dmem.storeU32 (effectiveAddress s rs1 imm).toNat (readReg s rs2) <;> rfl

theorem execJal_withSwitches (rd : Reg) (off : BitVec 21) :
    execJal rd off (withSwitches warn trace s) = mapState (withSwitches warn trace) (execJal rd off s) := by
  unfold execJal
  split
  · rfl
  · exact linkAndJump_withSwitches warn trace s rd _

/-- No instruction reads the two switches (R31). -/
theorem exec_withSwitches (i : Instr) :
    exec i (withSwitches warn trace s) = mapState (withSwitches warn trace) (exec i s) := by
  cases i with
  | lw rd rs1 imm => exact execLw_withSwitches warn trace s rd rs1 imm
  | sw rs2 rs1 imm => exact execSw_withSwitches warn trace s rs2 rs1 imm
  | beq rs1 rs2 off => rfl
  | bne rs1 rs2 off => rfl
  | halt => rfl
  | jal rd off => exact execJal_withSwitches warn trace s rd off
  | jalr rd rs1 imm => exact linkAndJump_withSwitches warn trace s rd _
  | _ => exact finishWithResult_withSwitches warn trace s _ _

/-! ### The step -/

/-- The switches change no answer of a step but themselves (R31). -/
theorem step_withSwitches :
    step (withSwitches warn trace s) = mapState (withSwitches warn trace) (step s) := by
  cases step_shape s with
  | noStep hno hr => rw [← hr, step_noStep (by simpa using hno), repeatTerminal_withSwitches]
  | fetchFault hc hs hr =>
    rw [← hr]
    exact step_fetchFault (by simpa using hc) hs
  | illegal hc w hw hd hr =>
    rw [← hr]
    exact step_illegal (by simpa using hc) (by simpa using hw) (by simpa using hd)
  | refused hc w hw hd hr =>
    rw [← hr]
    exact step_refused (by simpa using hc) (by simpa using hw) (by simpa using hd)
  | ran hc w i hw hd hr =>
    rw [← hr, step_ran (by simpa using hc) (by simpa using hw) ((dispatch_withSwitches warn trace s w).trans hd)]
    exact exec_withSwitches warn trace (closeLoader s) i

end Switches

/-- Settles O35: construction sets the configuration and the capacities, steps keep them, and no step reads the
switches. -/
theorem configurationIsFixedAndSwitchesAreInert : Obligations.ConfigurationIsFixedAndSwitchesAreInert := by
  refine ⟨fun p => ⟨rfl, (construct_wf _ _).2, (construct_wf _ _).2⟩, fun s t h => ?_, fun s warn trace => ?_⟩
  · obtain ⟨himem, hconfig, _⟩ := step_next_fixed h
    exact ⟨hconfig, by rw [himem], step_next_dmem_size h⟩
  · exact step_withSwitches warn trace s

end Sys2Proof.Proofs
end

section
/-! PROOF. The register file at any index (R15, R16). -/

namespace Sys2Proof.Proofs

open Sys2Proof.Machine Sys2Proof.Claims

theorem readIndex_toNat (s : State) (r : Reg) : readIndex s r.toNat = .ok (readReg s r) := by
  have hr : r.toNat < 32 := r.isLt
  simp [readIndex, hr]

theorem writeIndex_toNat (s : State) (r : Reg) (v : Word) : writeIndex s r.toNat v = .ok (writeReg s r v) := by
  have hr : r.toNat < 32 := r.isLt
  simp [writeIndex, hr]

theorem readIndex_invalid (s : State) {k : Nat} (h : 32 ≤ k) : readIndex s k = .error (.invalidRegister k) := by
  simp [readIndex, h]

theorem writeIndex_invalid (s : State) {k : Nat} (h : 32 ≤ k) (v : Word) :
    writeIndex s k v = .error (.invalidRegister k) := by
  simp [writeIndex, h]

/-- Every index is the number of a register, or invalid (R18). -/
theorem index_cases (k : Nat) : 32 ≤ k ∨ ∃ r : Reg, r.toNat = k := by
  by_cases h : 32 ≤ k
  · exact .inl h
  · exact .inr ⟨BitVec.ofNat 5 k, by rw [BitVec.toNat_ofNat]; omega⟩

/-- A write of a register changes no read of another index. -/
theorem readIndex_writeReg_other (s : State) {r : Reg} {j : Nat} (v : Word) (h : j ≠ r.toNat) :
    readIndex (writeReg s r v) j = readIndex s j := by
  rcases index_cases j with hj | ⟨q, rfl⟩
  · rw [readIndex_invalid _ hj, readIndex_invalid _ hj]
  · rw [readIndex_toNat, readIndex_toNat, readReg_writeReg_other]
    exact fun hq => h (by rw [hq])

/-- A register write changes no memory byte. -/
theorem sameBytes_writeReg (s : State) (r : Reg) (v : Word) : SameBytes s (writeReg s r v) := by
  intro space a
  cases space <;> simp [readByte]

/-- Settles O36: every index below 32 is a register's number, where the block's reads and writes are the
instructions' own. -/
theorem registerFileReadsAndWrites : Obligations.RegisterFileReadsAndWrites := by
  intro s k v
  refine ⟨fun hk => ⟨readIndex_invalid s hk, writeIndex_invalid s hk v⟩, ?_,
    fun r => ⟨readIndex_toNat s r, writeIndex_toNat s r v⟩, fun hk => ?_⟩
  · exact (readIndex_toNat s 0#5).trans (congrArg Except.ok (readReg_zero s))
  · obtain hk' | ⟨r, rfl⟩ := index_cases k
    · omega
    · refine ⟨writeReg s r v, writeIndex_toNat s r v, fun h0 => ?_, fun h0 => ?_,
        fun j hj => readIndex_writeReg_other s v hj, by simp, sameBytes_writeReg s r v, by simp [SameControl]⟩
      · have hr : r = 0#5 := BitVec.eq_of_toNat_eq (by simpa using h0)
        rw [hr, writeReg_zero]
      · have hr : r ≠ 0#5 := fun hr => h0 (by rw [hr]; rfl)
        rw [readIndex_toNat, readReg_writeReg_same s v hr]

end Sys2Proof.Proofs
end

section
/-! PROOF. The loader: what a write and a program leave in instruction memory, and that a step closes the interface
(R36, R46, R124, R129). -/

namespace Sys2Proof.Proofs

open Sys2Proof.Machine Sys2Proof.Claims

/-! ### One write -/

/-- The bytes of a word, lowest address first, are at an address of a memory. -/
def HoldsWord (m : Memory) (a : Nat) (v : Word) : Prop := ∀ k, k < 4 → m.byte? (a + k) = some (byteOfWord v k)

/-- The four bytes of a word as the statements write them. -/
theorem fourBytes_of_holdsWord {s : State} {a : Nat} {v : Word} (h : HoldsWord s.imem a v) :
    FourBytes s .imem a (v.extractLsb' 0 8) (v.extractLsb' 8 8) (v.extractLsb' 16 8) (v.extractLsb' 24 8) :=
  ⟨h 0 (by decide), h 1 (by decide), h 2 (by decide), h 3 (by decide)⟩

/-- A word whose four bytes read alike in another memory is there too. -/
theorem HoldsWord.congr {m n : Memory} {a : Nat} {v : Word} (h : HoldsWord m a v)
    (hb : ∀ b, a ≤ b → b < a + 4 → n.byte? b = m.byte? b) : HoldsWord n a v := by
  intro k hk
  rw [hb (a + k) (by omega) (by omega), h k hk]

/-- A closed interface refuses every write (R36). -/
theorem writeWordAtIndex_closed {s : State} (h : s.loaderOpen = false) (k : Nat) (v : Word) :
    writeWordAtIndex s k v = .error .refused := by
  simp [writeWordAtIndex, h]

/-- A loader write that is made leaves another instruction memory: canonical as before, its word at index*4, every
other byte as before (R36, R46). -/
theorem writeWordAtIndex_ok {s t : State} {k : Nat} {v : Word} (h : writeWordAtIndex s k v = .ok t)
    (hwf : s.imem.wf = true) :
    t.imem.wf = true ∧ HoldsWord t.imem (k * 4) v ∧
      ∀ b, (b < k * 4 ∨ k * 4 + 4 ≤ b) → t.imem.byte? b = s.imem.byte? b := by
  rcases writeWordAtIndex_cases s k v with ⟨_, hr, he⟩ | ⟨_, _, he⟩ | ⟨_, he⟩ <;> rw [he] at h <;> cases h
  exact ⟨putWord_wf hwf hr v, fun j hj => byte?_putWord hwf hr v hj, fun b hb => byte?_putWord_other s.imem _ v hb⟩

/-! ### A program -/

/-- Loading words from an index up leaves each at its own address, and every byte outside them as before (R124). -/
theorem loadWordsFrom_ok {t : State} : ∀ {s : State} {index : Nat} {words : List Word},
    loadWordsFrom s index words = .ok t → s.imem.wf = true →
    t.imem.wf = true ∧
      (∀ k w, words[k]? = some w → HoldsWord t.imem ((index + k) * 4) w) ∧
      ∀ b, (b < index * 4 ∨ (index + words.length) * 4 ≤ b) → t.imem.byte? b = s.imem.byte? b
  | s, index, [], h, hwf => by
    cases h
    exact ⟨hwf, nofun, fun _ _ => rfl⟩
  | s, index, v :: rest, h, hwf => by
    cases hu : writeWordAtIndex s index v with
    | error e => simp [loadWordsFrom, hu] at h
    | ok u =>
      simp only [loadWordsFrom, hu] at h
      obtain ⟨huwf, hfirst, hother⟩ := writeWordAtIndex_ok hu hwf
      obtain ⟨htwf, hwords, hbelow⟩ := loadWordsFrom_ok h huwf
      refine ⟨htwf, fun k w hk => ?_, fun b hb => ?_⟩
      · cases k with
        | zero =>
          cases hk
          exact hfirst.congr fun b _ hb => hbelow b (.inl (by omega))
        | succ j => simpa [Nat.add_assoc, Nat.add_comm 1] using hwords j w hk
      · simp only [List.length_cons] at hb
        rw [hbelow b (by omega), hother b (by omega)]

/-! ### After a step -/

/-- A closed interface stays closed (R36). -/
theorem step_loaderClosed {s t : State} (hs : s.loaderOpen = false) (h : step s = .next t) : t.loaderOpen = false := by
  cases hc : canStep s with
  | true => exact step_next_loaderOpen hc h
  | false =>
    rw [repeatTerminal_next ((step_noStep hc).symm.trans h)]
    exact hs

/-- The core the harness goes on with has its interface closed, where a step was taken or it was closed before
(R36, R129; log 12). -/
theorem coreAfter_loaderClosed {s : State} (hs : MayStep s ∨ s.loaderOpen = false) :
    (coreAfter s (step s)).loaderOpen = false := by
  cases hc : canStep s with
  | true => exact coreAfter_loaderOpen hc
  | false =>
    rw [coreAfter_noStep hc]
    exact hs.resolve_left (canStep_eq_false.1 hc)

/-- Settles O44: a write is one word put in instruction memory, a program is its words in turn, and every step taken
closes the interface. -/
theorem loaderWritesBeforeTheFirstStepOnly : Obligations.LoaderWritesBeforeTheFirstStepOnly := by
  refine ⟨fun s k v hwf hopen hr => ?_, fun s k v hopen hr => ?_,
    fun s t k v hc h => writeWordAtIndex_closed (step_next_loaderOpen (mayStep_iff.1 hc) h) k v,
    fun s t hs h => step_loaderClosed hs h,
    fun s k v hs => writeWordAtIndex_closed (coreAfter_loaderClosed hs) k v,
    fun s t program hwf h k w hk => ?_, fun i s t h a => ?_⟩
  · rcases writeWordAtIndex_cases s k v with ⟨_, _, he⟩ | ⟨_, hout, _⟩ | ⟨hclosed, _⟩
    · obtain ⟨_, hword, hother⟩ := writeWordAtIndex_ok he hwf
      exact ⟨_, he, fourBytes_of_holdsWord hword, hother, fun _ => rfl, fun _ => rfl, rfl, by simp [SameControl]⟩
    · omega
    · rw [hopen] at hclosed; cases hclosed
  · rcases writeWordAtIndex_cases s k v with ⟨_, hin, _⟩ | ⟨_, _, he⟩ | ⟨hclosed, _⟩
    · omega
    · exact he
    · rw [hopen] at hclosed; cases hclosed
  · obtain ⟨_, hwords, _⟩ := loadWordsFrom_ok h hwf
    exact fourBytes_of_holdsWord (by simpa using hwords k w hk)
  · simp only [readByte, (exec_fixed h).1]

end Sys2Proof.Proofs
end

section
/-! PROOF. The ports of a step_req cycle (R39): one form for every cycle that answers, from which each port is read
off. -/

namespace Sys2Proof.Proofs

open Sys2Proof.Machine Sys2Proof.Claims

/-! ### The outcome ports beside the diagnostic ports -/

section Outputs

variable (out : PortOut) (d : Option Diagnostic)

@[simp] theorem diagnosticOut_stepDone : (diagnosticOut out d).stepDone = out.stepDone := by cases d <;> rfl
@[simp] theorem diagnosticOut_outcome : (diagnosticOut out d).outcome = out.outcome := by cases d <;> rfl
@[simp] theorem diagnosticOut_faultKind : (diagnosticOut out d).faultKind = out.faultKind := by cases d <;> rfl
@[simp] theorem diagnosticOut_faultSpace : (diagnosticOut out d).faultSpace = out.faultSpace := by cases d <;> rfl
@[simp] theorem diagnosticOut_faultAddr : (diagnosticOut out d).faultAddr = out.faultAddr := by cases d <;> rfl
@[simp] theorem diagnosticOut_illegalPc : (diagnosticOut out d).illegalPc = out.illegalPc := by cases d <;> rfl
@[simp] theorem diagnosticOut_illegalWord : (diagnosticOut out d).illegalWord = out.illegalWord := by cases d <;> rfl
@[simp] theorem diagnosticOut_nextPc : (diagnosticOut out d).nextPc = out.nextPc := by cases d <;> rfl

@[simp] theorem diagnosticOut_none : diagnosticOut out none = out := rfl

@[simp] theorem quietOut_warnValid (inp : PortIn) (s : State) : (quietOut inp s).warnValid = false := rfl

@[simp] theorem outcomeOut_warnValid (o : StepOutcome) : (outcomeOut out o).warnValid = out.warnValid := by
  cases o <;> rfl

/-- A state stands for an outcome that drives the ports: Refused is no engine state (R34). -/
@[simp] theorem outcomeOut_stateOutcome_stepDone (s : State) : (outcomeOut out (stateOutcome s)).stepDone = true := by
  unfold stateOutcome
  split
  · rfl
  · split <;> rfl

@[simp] theorem outcomeOut_stateOutcome_outcome (s : State) :
    (outcomeOut out (stateOutcome s)).outcome = outcomeCode (stateOutcome s) := by
  unfold stateOutcome
  split
  · rfl
  · split <;> rfl

end Outputs

/-! ### The cycle -/

/-- A step_req cycle without rst is a step cycle (R39). -/
theorem cycle_stepReq (p : Params) {inp : PortIn} (s : State) (hrst : inp.rst = false) (hreq : inp.stepReq = true) :
    cycle p inp s = stepCycle inp s := by
  simp [cycle, hrst, hreq]

/-- The outputs of a step cycle that leaves state `t`, with the diagnostic its step emitted. -/
def stepOut (inp : PortIn) (t : State) (d : Option Diagnostic) : PortOut :=
  { diagnosticOut (outcomeOut (quietOut inp t) (stateOutcome t)) d with ldErr := inp.ldWe }

/-- All that a step cycle that answers does (R39, R28): the ports report the state it leaves. -/
theorem stepCycle_ok {inp : PortIn} {s t : State} {out : PortOut} (h : stepCycle inp s = .ok (t, out)) :
    out = stepOut inp t (stepDiagnostic s) ∧ outcomeOf (step s) = stateOutcome t ∧ t.imem = s.imem ∧
      t.refusedMark = none := by
  unfold stepCycle at h
  cases hs : step s with
  | refused r => rw [hs] at h; cases h
  | next u =>
    rw [hs] at h; cases h
    exact ⟨rfl, rfl, (step_next_fixed hs).1, step_next_refusedMark hs⟩
  | fault f =>
    obtain ⟨hno, hmark, hf⟩ := step_fault hs
    rw [hs] at h; cases h
    refine ⟨?_, (stateOutcome_fault hf).symm, rfl, hmark⟩
    rw [stepOut, stepDiagnostic_noStep hno, stateOutcome_fault hf]
    rfl

/-- A step cycle of a terminal core changes nothing and reports its state, with no diagnostic (R28, R39). -/
theorem stepCycle_noStep (inp : PortIn) {s : State} (hno : canStep s = false) (hmark : s.refusedMark = none) :
    stepCycle inp s = .ok (s, stepOut inp s none) := by
  unfold stepCycle
  rw [step_noStep hno, stepDiagnostic_noStep hno]
  rcases repeatTerminal_cases s with ⟨m, hm, _⟩ | ⟨f, _, hf, he⟩ | ⟨_, _, he⟩
  · rw [hmark] at hm; cases hm
  · rw [he, stepOut, stateOutcome_fault hf]; rfl
  · rw [he]; rfl

/-- Settles O48: both cycles put out the ports of the same state. -/
theorem stepPortsRepeatTheTerminalOutcome : Obligations.StepPortsRepeatTheTerminalOutcome := by
  intro p inp s t out hrst hreq h
  rw [cycle_stepReq p s hrst hreq] at h
  obtain ⟨rfl, houtcome, himem, hmark⟩ := stepCycle_ok h
  refine ⟨by simp [stepOut], by simp [stepOut, houtcome], rfl, himem, fun hterminal => ?_⟩
  refine ⟨stepOut inp t none, ?_, ?_⟩
  · rw [cycle_stepReq p t hrst hreq, stepCycle_noStep inp (canStep_eq_false.2 hterminal) hmark]
  · simp [stepOut]

end Sys2Proof.Proofs
end

section
/-! PROOF. The memory operations: which bytes a load, a fetch and a store read and write, and that an access out of
range touches none (R42 to R45, R50). -/

namespace Sys2Proof.Proofs

open Sys2Proof.Machine Sys2Proof.Claims

/-! ### Loads and fetches -/

/-- A load in range reads its four bytes, the lowest address least significant (R43). -/
theorem loadU32_bytes {m : Memory} {a : Nat} (h : a + 4 ≤ m.size) :
    ∃ b0 b1 b2 b3, m.byte? a = some b0 ∧ m.byte? (a + 1) = some b1 ∧ m.byte? (a + 2) = some b2 ∧
      m.byte? (a + 3) = some b3 ∧ m.loadU32 a = some (b3 ++ b2 ++ b1 ++ b0) := by
  rcases loadU32_cases m a with ⟨_, he⟩ | ⟨hr, _⟩
  · exact ⟨_, _, _, _, byte?_of_lt (by omega), byte?_of_lt (by omega), byte?_of_lt (by omega), byte?_of_lt (by omega),
      he⟩
  · omega

theorem memRead_bytes {s : State} {a : Word} (h : a.toNat + 4 ≤ s.dmem.size) :
    ∃ b0 b1 b2 b3, FourBytes s .dmem a.toNat b0 b1 b2 b3 ∧ memRead s a = .ok (b3 ++ b2 ++ b1 ++ b0) := by
  obtain ⟨b0, b1, b2, b3, h0, h1, h2, h3, he⟩ := loadU32_bytes h
  exact ⟨b0, b1, b2, b3, ⟨h0, h1, h2, h3⟩, by simp [memRead, he]⟩

theorem fetch_bytes {s : State} (h : s.pc.toNat + 4 ≤ s.imem.size) :
    ∃ b0 b1 b2 b3, FourBytes s .imem s.pc.toNat b0 b1 b2 b3 ∧ fetch s = .ok (b3 ++ b2 ++ b1 ++ b0) := by
  obtain ⟨b0, b1, b2, b3, h0, h1, h2, h3, he⟩ := loadU32_bytes h
  exact ⟨b0, b1, b2, b3, ⟨h0, h1, h2, h3⟩, by simp [fetch, he]⟩

theorem memRead_outOfRange {s : State} {a : Word} (h : s.dmem.size < a.toNat + 4) :
    memRead s a = .error (.outOfRange .dmem a) := by
  rcases memRead_cases s a with ⟨hr, _⟩ | ⟨_, he⟩
  · omega
  · exact he

theorem fetch_outOfRange {s : State} (h : s.imem.size < s.pc.toNat + 4) :
    fetch s = .error (.outOfRange .imem s.pc) := by
  rcases fetch_cases s with ⟨hr, _⟩ | ⟨_, he⟩
  · omega
  · exact he

/-! ### Stores -/

theorem memWrite_inRange {s : State} {a : Word} (h : a.toNat + 4 ≤ s.dmem.size) (v : Word) :
    memWrite s a v = .ok (setDmem s (s.dmem.putWord a.toNat v)) := by
  rcases memWrite_cases s a v with ⟨_, he⟩ | ⟨hr, _⟩
  · exact he
  · omega

theorem memWrite_outOfRange {s : State} {a : Word} (h : s.dmem.size < a.toNat + 4) (v : Word) :
    memWrite s a v = .error (.outOfRange .dmem a) := by
  rcases memWrite_cases s a v with ⟨hr, _⟩ | ⟨_, he⟩
  · omega
  · exact he

/-- A word put in data memory in range is there, byte by byte (R44). -/
theorem fourBytes_putWord {s : State} (hwf : s.dmem.wf = true) {a : Nat} (h : a + 4 ≤ s.dmem.size) (v : Word) :
    FourBytes (setDmem s (s.dmem.putWord a v)) .dmem a (v.extractLsb' 0 8) (v.extractLsb' 8 8)
      (v.extractLsb' 16 8) (v.extractLsb' 24 8) :=
  have hword : HoldsWord (s.dmem.putWord a v) a v := fun _ hk => byte?_putWord hwf h v hk
  ⟨hword 0 (by decide), hword 1 (by decide), hword 2 (by decide), hword 3 (by decide)⟩

/-! ### The two instructions that access data memory -/

/-- An instruction whose answer is the old state with a fault latched changes nothing else (R12). -/
theorem latches_of_exec {i : Instr} {s : State} {f : Fault} (h : exec i s = .next (latchFault s f)) : Latches i s f :=
  ⟨_, h, rfl, fun _ => rfl, rfl, fun _ _ => rfl, rfl, rfl, rfl, rfl⟩

/-- lw out of range reads no byte and writes no register, x0 or other (R45, R92). -/
theorem lw_latches {s : State} (rd : Reg) {rs1 : Reg} {imm : BitVec 12}
    (h : s.dmem.size < (effectiveAddress s rs1 imm).toNat + 4) :
    Latches (.lw rd rs1 imm) s (.outOfRange .dmem (effectiveAddress s rs1 imm)) :=
  latches_of_exec (by simp only [exec, execLw, memRead_outOfRange h])

/-- sw out of range writes no byte (R45, R93). -/
theorem sw_latches {s : State} (rs2 : Reg) {rs1 : Reg} {imm : BitVec 12}
    (h : s.dmem.size < (effectiveAddress s rs1 imm).toNat + 4) :
    Latches (.sw rs2 rs1 imm) s (.outOfRange .dmem (effectiveAddress s rs1 imm)) :=
  latches_of_exec (by simp only [exec, execSw, memWrite_outOfRange h])

/-- Settles O15: each operation is its range check and then the four bytes of one word. -/
theorem memoryPrimitivesAreLittleEndian : Obligations.MemoryPrimitivesAreLittleEndian := by
  refine ⟨fun s a h => memRead_bytes h, fun s a h => memRead_outOfRange h, fun s h => fetch_bytes h,
    fun s h => fetch_outOfRange h, fun s a v hwf h => ?_, fun s a v h => memWrite_outOfRange h v,
    fun s r rs1 imm h => ⟨lw_latches r h, sw_latches r h⟩, fun i s t h hi a => ?_⟩
  · exact ⟨_, memWrite_inRange h v, fourBytes_putWord hwf h v, fun b hb => byte?_putWord_other s.dmem a.toNat v hb,
      fun _ => rfl, fun _ => rfl, rfl, by simp [SameControl]⟩
  · simp only [readByte, exec_dmem_of_not_sw h hi]

/-! ### The fetch of a step -/

/-- A step whose fetch faults emits no diagnostic (R50, R111). -/
theorem stepDiagnostic_fetchFault {s : State} (h : s.imem.size < s.pc.toNat + 4) : stepDiagnostic s = none := by
  simp [stepDiagnostic, fetchAction, fetch_outOfRange h]

/-- A step taken that executes an instruction emits the instruction's diagnostic (R34, R110). -/
theorem stepDiagnostic_execute {s : State} {w : Word} {i : Instr} (hc : canStep s = true) (hw : fetch s = .ok w)
    (hd : dispatch s.config w = .execute i) : stepDiagnostic s = instrDiagnostic i s := by
  simp [stepDiagnostic, fetchAction, hc, hw, hd]

/-- Only lw and sw emit a diagnostic: no other instruction accesses data memory (R51, R110). -/
theorem instrDiagnostic_of_not_access {i : Instr} (hi : ∀ a b c, i ≠ .lw a b c ∧ i ≠ .sw a b c) (s : State) :
    instrDiagnostic i s = none := by
  cases i with
  | lw rd rs1 imm => exact absurd rfl (hi rd rs1 imm).1
  | sw rs2 rs1 imm => exact absurd rfl (hi rs2 rs1 imm).2
  | _ => rfl

/-- Settles O27: the fetch is a load at the pc; out of range, the step only latches the fault and closes the loader. -/
theorem fetchReadsFourBytesOrFaults : Obligations.FetchReadsFourBytesOrFaults := by
  refine ⟨fun s h => fetch_bytes h, fun s hc hr => ?_, fun s w i hw hd hi => ?_⟩
  · have hstep := step_fetchFault (mayStep_iff.1 hc) hr
    refine ⟨_, hstep, rfl, fun _ => rfl, rfl, fun _ _ => rfl, by simpa using hc.1, rfl,
      stepDiagnostic_fetchFault hr, ?_⟩
    rw [hstep]
    exact stateOutcome_fault (latchFault_fault (closeLoader s) _)
  · cases hc : canStep s with
    | false => exact stepDiagnostic_noStep hc
    | true => rw [stepDiagnostic_execute hc hw hd, instrDiagnostic_of_not_access hi]

end Sys2Proof.Proofs
end

section
/-! PROOF. What a step and a run leave unchanged of the memories (R44, R51, R58), and that a canonical memory is
determined by its bytes. -/

namespace Sys2Proof.Proofs

open Sys2Proof.Machine Sys2Proof.Claims

/-! ### Instruction memory -/

/-- The core the harness goes on with has the instruction memory it had (R58). -/
theorem coreAfter_imem (s : State) : (coreAfter s (step s)).imem = s.imem := by
  cases hc : canStep s with
  | false => rw [coreAfter_noStep hc]
  | true =>
    rcases coreAfter_step hc with ⟨t, ht, he⟩ | ⟨w, _, _, he⟩ <;> rw [he]
    · exact (step_next_fixed ht).1
    · simp

/-- What every call of the driver keeps of the core, every run keeps (R126). -/
theorem driveFor_keeps {P : State → Prop} (hcall : ∀ s, P s → P (coreAfter s (step s))) (maxSteps : Nat) :
    ∀ (left : Nat) (h : Harness), P h.core → P (driveFor maxSteps left h).2.core
  | 0, _, hP => hP
  | left + 1, h, hP => by
    unfold driveFor
    split
    · exact hcall h.core hP
    · exact driveFor_keeps hcall maxSteps left h.call (hcall h.core hP)

/-- Settles O32: no call of the driver changes instruction memory, so no run does. -/
theorem instructionMemoryNeverChanges : Obligations.InstructionMemoryNeverChanges := by
  refine ⟨fun s t h a => ?_, fun n h a => ?_⟩
  · simp only [readByte, (step_next_fixed h).1]
  · have himem : (run n h).2.core.imem = h.core.imem :=
      driveFor_keeps (P := fun s => s.imem = h.core.imem) (fun s hs => (coreAfter_imem s).trans hs) n n h rfl
    simp only [readByte, himem]

/-! ### Data memory -/

/-- An instruction that changes a byte of data memory is an sw, and the byte is one of the four it stores (R44). -/
theorem exec_changes_dmem {i : Instr} {s t : State} {a : Nat} (h : exec i s = .next t)
    (ha : t.dmem.byte? a ≠ s.dmem.byte? a) :
    ∃ rs2 rs1 imm, i = .sw rs2 rs1 imm ∧ (effectiveAddress s rs1 imm).toNat ≤ a ∧
      a < (effectiveAddress s rs1 imm).toNat + 4 := by
  cases exec_next_shape h with
  | stored rs2 rs1 imm hi _ =>
    have hin : ¬ (a < (effectiveAddress s rs1 imm).toNat ∨ (effectiveAddress s rs1 imm).toNat + 4 ≤ a) :=
      fun hout => ha (byte?_putWord_other s.dmem _ _ hout)
    exact ⟨rs2, rs1, imm, hi, by omega, by omega⟩
  | _ => simp at ha

/-- Settles O33: a step that changes a byte ran an instruction that did, and only an sw word is executed as sw. -/
theorem onlySwChangesDataMemory : Obligations.OnlySwChangesDataMemory := by
  intro s t a h ha
  cases step_next_shape h with
  | unchanged _ _ _ => exact absurd rfl ha
  | fetchFault _ _ => exact absurd rfl ha
  | illegal _ _ _ _ => exact absurd rfl ha
  | ran _ w i hw hd ht =>
    obtain ⟨rs2, rs1, imm, rfl, hlow, hhigh⟩ := exec_changes_dmem ht ha
    exact ⟨w, rs2, rs1, imm, hw, dispatch_sw_word hd, hlow, hhigh⟩

/-! ### Canonical memories -/

theorem byte?_eq_none {m : Memory} {a : Nat} : m.byte? a = none ↔ m.size ≤ a := by simp [Memory.byte?]

/-- The addresses a memory answers at determine its capacity (R32). -/
theorem size_eq_of_byte? {m n : Memory} (h : ∀ a, m.byte? a = n.byte? a) : m.size = n.size := by
  have hle : ∀ a, m.size ≤ a ↔ n.size ≤ a := fun a => by rw [← byte?_eq_none, ← byte?_eq_none, h a]
  exact Nat.le_antisymm ((hle n.size).2 le_rfl) ((hle m.size).1 le_rfl)

/-- Settles O43: the bytes determine the capacity, and then the cells. -/
theorem canonicalMemoriesAreDeterminedByTheirBytes : Obligations.CanonicalMemoriesAreDeterminedByTheirBytes := by
  intro m n hm hn h
  obtain rfl := memory_ext hm hn (size_eq_of_byte? h) h
  exact ⟨rfl, rfl⟩

end Sys2Proof.Proofs
end

section
/-! PROOF. The decoder and the encoder are inverse to each other on the words that are instructions (R63, R72, R75),
and every word with the fixed bits of a row of the opcode table is that row's instruction. -/

namespace Sys2Proof.Proofs

open Sys2Proof.Machine Sys2Proof.Claims

/-! ### Decoding an encoded instruction -/

/-- The law RoundTrip of every instruction. -/
theorem decode_encode {i : Instr} (h : i.wellFormed = true) : decode (encode i) = .instr i := by
  cases i with
  | add rd rs1 rs2 => exact Laws.RoundTrip.add rd rs1 rs2 h
  | sub rd rs1 rs2 => exact Laws.RoundTrip.sub rd rs1 rs2 h
  | sll rd rs1 rs2 => exact Laws.RoundTrip.sll rd rs1 rs2 h
  | xor rd rs1 rs2 => exact Laws.RoundTrip.xor rd rs1 rs2 h
  | srl rd rs1 rs2 => exact Laws.RoundTrip.srl rd rs1 rs2 h
  | sra rd rs1 rs2 => exact Laws.RoundTrip.sra rd rs1 rs2 h
  | or rd rs1 rs2 => exact Laws.RoundTrip.or rd rs1 rs2 h
  | and rd rs1 rs2 => exact Laws.RoundTrip.and rd rs1 rs2 h
  | addi rd rs1 imm => exact Laws.RoundTrip.addi rd rs1 imm h
  | lw rd rs1 imm => exact Laws.RoundTrip.lw rd rs1 imm h
  | sw rs2 rs1 imm => exact Laws.RoundTrip.sw rs2 rs1 imm h
  | beq rs1 rs2 off => exact Laws.RoundTrip.beq rs1 rs2 off h
  | bne rs1 rs2 off => exact Laws.RoundTrip.bne rs1 rs2 off h
  | halt => exact Laws.RoundTrip.halt h
  | jal rd off => exact Laws.RoundTrip.jal rd off h
  | jalr rd rs1 imm => exact Laws.RoundTrip.jalr rd rs1 imm h
  | lui rd imm => exact Laws.RoundTrip.lui rd imm h
  | auipc rd imm => exact Laws.RoundTrip.auipc rd imm h

/-- Settles O2: each field the decoder reads of an encoded word is the operand the encoder put there. -/
theorem decodeOfEncodeIsTheInstruction : Obligations.DecodeOfEncodeIsTheInstruction := fun _ h => decode_encode h

/-! ### Encoding a decoded instruction -/

section Word

variable {w : Word} {i : Instr}

theorem byFunct7_eq_instr {at00 at20 : Instr} :
    byFunct7 w at00 at20 = .instr i ↔ funct7Of w = 0x00 ∧ at00 = i ∨ funct7Of w = 0x20 ∧ at20 = i := by
  unfold byFunct7
  split_ifs with h0 h20
  · simp [h0]
  · simp [h20]
  · simp_all

theorem settledIfFunct7Zero_eq_instr {j : Instr} :
    settledIfFunct7Zero w j = .instr i ↔ funct7Of w = 0x00 ∧ j = i := by
  unfold settledIfFunct7Zero
  split_ifs with h0
  · simp [h0]
  · simp_all

theorem onlyFunct3_eq_instr {f3 : BitVec 3} {j : Instr} :
    onlyFunct3 w f3 j = .instr i ↔ funct3Of w = f3 ∧ j = i := by
  unfold onlyFunct3
  split_ifs with h3 <;> simp [h3]

/-- An R word is its registers and the three fixed fields of its row (R63). -/
theorem encodeR_of_fixed {f7 : BitVec 7} {f3 : BitVec 3} {op : BitVec 7} (hop : opcodeOf w = op)
    (h3 : funct3Of w = f3) (h7 : funct7Of w = f7) : encodeR f7 (rs2Of w) (rs1Of w) f3 (rdOf w) op = w := by
  subst hop h3 h7; exact encodeR_fields w

/-- An I word is its operands and the two fixed fields of its row (R63). -/
theorem encodeI_of_fixed {f3 : BitVec 3} {op : BitVec 7} (hop : opcodeOf w = op) (h3 : funct3Of w = f3) :
    encodeI (immIOf w) (rs1Of w) f3 (rdOf w) op = w := by
  subst hop h3; exact encodeI_fields w

/-- An S word is its operands and the two fixed fields of its row (R63). -/
theorem encodeS_of_fixed {f3 : BitVec 3} {op : BitVec 7} (hop : opcodeOf w = op) (h3 : funct3Of w = f3) :
    encodeS (immSOf w) (rs2Of w) (rs1Of w) f3 op = w := by
  subst hop h3; exact encodeS_fields w

/-- A B word is its operands and the two fixed fields of its row (R63). -/
theorem encodeB_of_fixed {f3 : BitVec 3} {op : BitVec 7} (hop : opcodeOf w = op) (h3 : funct3Of w = f3) :
    encodeB (immBOf w) (rs2Of w) (rs1Of w) f3 op = w := by
  subst hop h3; exact encodeB_fields w

/-- A U word is its operands and the opcode of its row (R63). -/
theorem encodeU_of_fixed {op : BitVec 7} (hop : opcodeOf w = op) : encodeU (immUOf w) (rdOf w) op = w := by
  subst hop; exact encodeU_fields w

/-- A J word is its operands and the opcode of its row (R63). -/
theorem encodeJ_of_fixed {op : BitVec 7} (hop : opcodeOf w = op) : encodeJ (immJOf w) (rdOf w) op = w := by
  subst hop; exact encodeJ_fields w

theorem encode_of_decodeRegister (hop : opcodeOf w = opRegister) (h : decodeRegister w = .instr i) :
    encode i = w := by
  unfold decodeRegister at h
  split_ifs at h with h0 h1 h4 h5 h6 h7
  · rcases byFunct7_eq_instr.1 h with ⟨hf, rfl⟩ | ⟨hf, rfl⟩
    · exact encodeR_of_fixed hop h0 hf
    · exact encodeR_of_fixed hop h0 hf
  · obtain ⟨hf, rfl⟩ := settledIfFunct7Zero_eq_instr.1 h
    exact encodeR_of_fixed hop h1 hf
  · obtain ⟨hf, rfl⟩ := settledIfFunct7Zero_eq_instr.1 h
    exact encodeR_of_fixed hop h4 hf
  · rcases byFunct7_eq_instr.1 h with ⟨hf, rfl⟩ | ⟨hf, rfl⟩
    · exact encodeR_of_fixed hop h5 hf
    · exact encodeR_of_fixed hop h5 hf
  · obtain ⟨hf, rfl⟩ := settledIfFunct7Zero_eq_instr.1 h
    exact encodeR_of_fixed hop h6 hf
  · obtain ⟨hf, rfl⟩ := settledIfFunct7Zero_eq_instr.1 h
    exact encodeR_of_fixed hop h7 hf

theorem encode_of_decodeBranch (hop : opcodeOf w = opBranch) (h : decodeBranch w = .instr i) : encode i = w := by
  unfold decodeBranch at h
  split_ifs at h with h0 h1
  · cases h; exact encodeB_of_fixed hop h0
  · cases h; exact encodeB_of_fixed hop h1

/-- The halt row's one word is its own encoding; every other word of the opcode is jal's (R101). -/
theorem encode_of_decodeJal (hop : opcodeOf w = opJal) (h : decodeJal w = .instr i) : encode i = w := by
  unfold decodeJal at h
  split_ifs at h with hz
  · cases h; exact (halt_word_of_fields ⟨hop, hz⟩).symm
  · cases h; exact encodeJ_of_fixed hop

theorem encode_of_decodeJalr (hop : opcodeOf w = opJalr) (h : decodeJalr w = .instr i) : encode i = w := by
  unfold decodeJalr at h
  split_ifs at h with h0
  cases h; exact encodeI_of_fixed hop h0

/-- A word that is an instruction is that instruction's encoding: opcode by opcode, the fixed fields are those the
dispatch table tested, and the operands are the other fields. -/
theorem encode_of_decode (h : decode w = .instr i) : encode i = w := by
  unfold decode at h
  split_ifs at h with hreg himm hload hstore hbranch hjal hjalr hlui hauipc
  · exact encode_of_decodeRegister hreg h
  · obtain ⟨h3, rfl⟩ := onlyFunct3_eq_instr.1 h
    exact encodeI_of_fixed himm h3
  · obtain ⟨h3, rfl⟩ := onlyFunct3_eq_instr.1 h
    exact encodeI_of_fixed hload h3
  · obtain ⟨h3, rfl⟩ := onlyFunct3_eq_instr.1 h
    exact encodeS_of_fixed hstore h3
  · exact encode_of_decodeBranch hbranch h
  · exact encode_of_decodeJal hjal h
  · exact encode_of_decodeJalr hjalr h
  · cases h; exact encodeU_of_fixed hlui
  · cases h; exact encodeU_of_fixed hauipc

theorem wellFormed_of_decode (h : decode w = .instr i) : i.wellFormed = true := by
  have hall := decode_all_wellFormed w
  rw [h] at hall
  exact hall

end Word

/-- Settles O3: the word is put together again from its fields. -/
theorem encodeOfDecodeIsTheWord : Obligations.EncodeOfDecodeIsTheWord :=
  fun _ _ h => ⟨wellFormed_of_decode h, encode_of_decode h⟩

/-! ### Every word of a row is the row's instruction (R72) -/

section Rows

variable {w : Word}

/-- A word that encodes a well-formed instruction is that instruction. -/
theorem decode_of_encode_eq {i : Instr} (hi : i.wellFormed = true) (h : encode i = w) : decode w = .instr i :=
  h ▸ decode_encode hi

/-- A word with the fixed bits of an R row has the row's opcode, funct3 and funct7, and operands in its other bits. -/
theorem encodeR_of_row {pattern : Word} {f7 : BitVec 7} {f3 : BitVec 3} {op : BitVec 7}
    (h : w &&& 0xFE00707F = pattern) (hop : opcodeOf pattern = op) (h3 : funct3Of pattern = f3)
    (h7 : funct7Of pattern = f7) : encodeR f7 (rs2Of w) (rs1Of w) f3 (rdOf w) op = w :=
  encodeR_of_fixed ((field_of_fixed h 0 7 rfl).trans hop) ((field_of_fixed h 12 3 rfl).trans h3)
    ((field_of_fixed h 25 7 rfl).trans h7)

/-- A word with the fixed bits of an I row has the row's opcode and funct3, and operands in its other bits. -/
theorem encodeI_of_row {pattern : Word} {f3 : BitVec 3} {op : BitVec 7} (h : w &&& 0x0000707F = pattern)
    (hop : opcodeOf pattern = op) (h3 : funct3Of pattern = f3) :
    encodeI (immIOf w) (rs1Of w) f3 (rdOf w) op = w :=
  encodeI_of_fixed ((field_of_fixed h 0 7 rfl).trans hop) ((field_of_fixed h 12 3 rfl).trans h3)

/-- A word with the fixed bits of an S row has the row's opcode and funct3, and operands in its other bits. -/
theorem encodeS_of_row {pattern : Word} {f3 : BitVec 3} {op : BitVec 7} (h : w &&& 0x0000707F = pattern)
    (hop : opcodeOf pattern = op) (h3 : funct3Of pattern = f3) :
    encodeS (immSOf w) (rs2Of w) (rs1Of w) f3 op = w :=
  encodeS_of_fixed ((field_of_fixed h 0 7 rfl).trans hop) ((field_of_fixed h 12 3 rfl).trans h3)

/-- A word with the fixed bits of a B row has the row's opcode and funct3, and operands in its other bits. -/
theorem encodeB_of_row {pattern : Word} {f3 : BitVec 3} {op : BitVec 7} (h : w &&& 0x0000707F = pattern)
    (hop : opcodeOf pattern = op) (h3 : funct3Of pattern = f3) :
    encodeB (immBOf w) (rs2Of w) (rs1Of w) f3 op = w :=
  encodeB_of_fixed ((field_of_fixed h 0 7 rfl).trans hop) ((field_of_fixed h 12 3 rfl).trans h3)

/-- A word with the fixed bits of a U row has the row's opcode, and operands in its other bits. -/
theorem encodeU_of_row {pattern : Word} {op : BitVec 7} (h : w &&& 0x0000007F = pattern)
    (hop : opcodeOf pattern = op) : encodeU (immUOf w) (rdOf w) op = w :=
  encodeU_of_fixed ((field_of_fixed h 0 7 rfl).trans hop)

/-- A word with the fixed bits of the J row has the row's opcode, and operands in its other bits. -/
theorem encodeJ_of_row {pattern : Word} {op : BitVec 7} (h : w &&& 0x0000007F = pattern)
    (hop : opcodeOf pattern = op) : encodeJ (immJOf w) (rdOf w) op = w :=
  encodeJ_of_fixed ((field_of_fixed h 0 7 rfl).trans hop)

/-- The offset the B format spells is one a branch can have (R67). -/
theorem branchOffsetEven_immBOf (w : Word) : branchOffsetEven (immBOf w) = true := by
  simp only [branchOffsetEven, immBOf_even, Bool.not_false]

/-- The offset the J format spells, in a word that is not the halt word, makes a well-formed jal (R69, R101). -/
theorem wellFormed_jal_of_ne_halt (hop : opcodeOf w = opJal) (hne : w ≠ 0x0000006F) :
    (Instr.jal (rdOf w) (immJOf w)).wellFormed = true := by
  have hz : rdOf w = 0 → immJOf w ≠ 0 := fun hrd himm => hne (halt_word_of_fields ⟨hop, hrd, himm⟩)
  simp only [Instr.wellFormed, jumpOffsetEven, immJOf_even]
  simpa [jalNotHaltWord, imp_iff_not_or] using hz

end Rows

theorem row_add : Row 0xFE00707F 0x00000033 fun w => .add (rdOf w) (rs1Of w) (rs2Of w) :=
  fun _ h => decode_of_encode_eq rfl (encodeR_of_row h rfl rfl rfl)

theorem row_sub : Row 0xFE00707F 0x40000033 fun w => .sub (rdOf w) (rs1Of w) (rs2Of w) :=
  fun _ h => decode_of_encode_eq rfl (encodeR_of_row h rfl rfl rfl)

theorem row_sll : Row 0xFE00707F 0x00001033 fun w => .sll (rdOf w) (rs1Of w) (rs2Of w) :=
  fun _ h => decode_of_encode_eq rfl (encodeR_of_row h rfl rfl rfl)

theorem row_xor : Row 0xFE00707F 0x00004033 fun w => .xor (rdOf w) (rs1Of w) (rs2Of w) :=
  fun _ h => decode_of_encode_eq rfl (encodeR_of_row h rfl rfl rfl)

theorem row_srl : Row 0xFE00707F 0x00005033 fun w => .srl (rdOf w) (rs1Of w) (rs2Of w) :=
  fun _ h => decode_of_encode_eq rfl (encodeR_of_row h rfl rfl rfl)

theorem row_sra : Row 0xFE00707F 0x40005033 fun w => .sra (rdOf w) (rs1Of w) (rs2Of w) :=
  fun _ h => decode_of_encode_eq rfl (encodeR_of_row h rfl rfl rfl)

theorem row_or : Row 0xFE00707F 0x00006033 fun w => .or (rdOf w) (rs1Of w) (rs2Of w) :=
  fun _ h => decode_of_encode_eq rfl (encodeR_of_row h rfl rfl rfl)

theorem row_and : Row 0xFE00707F 0x00007033 fun w => .and (rdOf w) (rs1Of w) (rs2Of w) :=
  fun _ h => decode_of_encode_eq rfl (encodeR_of_row h rfl rfl rfl)

theorem row_addi : Row 0x0000707F 0x00000013 fun w => .addi (rdOf w) (rs1Of w) (immIOf w) :=
  fun _ h => decode_of_encode_eq rfl (encodeI_of_row h rfl rfl)

theorem row_lw : Row 0x0000707F 0x00002003 fun w => .lw (rdOf w) (rs1Of w) (immIOf w) :=
  fun _ h => decode_of_encode_eq rfl (encodeI_of_row h rfl rfl)

theorem row_sw : Row 0x0000707F 0x00002023 fun w => .sw (rs2Of w) (rs1Of w) (immSOf w) :=
  fun _ h => decode_of_encode_eq rfl (encodeS_of_row h rfl rfl)

theorem row_beq : Row 0x0000707F 0x00000063 fun w => .beq (rs1Of w) (rs2Of w) (immBOf w) :=
  fun w h => decode_of_encode_eq (branchOffsetEven_immBOf w) (encodeB_of_row h rfl rfl)

theorem row_bne : Row 0x0000707F 0x00001063 fun w => .bne (rs1Of w) (rs2Of w) (immBOf w) :=
  fun w h => decode_of_encode_eq (branchOffsetEven_immBOf w) (encodeB_of_row h rfl rfl)

theorem row_halt : Row 0xFFFFFFFF 0x0000006F fun _ => .halt :=
  fun _ h => decode_of_encode_eq rfl (h.symm.trans BitVec.and_allOnes)

/-- jal's row without the halt word, whose own row goes before (R101). -/
theorem row_jal {w : Word} (h : w &&& 0x0000007F = 0x0000006F) (hne : w ≠ 0x0000006F) :
    decode w = .instr (.jal (rdOf w) (immJOf w)) :=
  decode_of_encode_eq (wellFormed_jal_of_ne_halt (field_of_fixed h 0 7 rfl) hne) (encodeJ_of_row h rfl)

theorem row_jalr : Row 0x0000707F 0x00000067 fun w => .jalr (rdOf w) (rs1Of w) (immIOf w) :=
  fun _ h => decode_of_encode_eq rfl (encodeI_of_row h rfl rfl)

theorem row_lui : Row 0x0000007F 0x00000037 fun w => .lui (rdOf w) (immUOf w) :=
  fun _ h => decode_of_encode_eq rfl (encodeU_of_row h rfl)

theorem row_auipc : Row 0x0000007F 0x00000017 fun w => .auipc (rdOf w) (immUOf w) :=
  fun _ h => decode_of_encode_eq rfl (encodeU_of_row h rfl)

/-! ### The opcode table -/

/-- The law TableRow of every instruction. -/
theorem encode_and_mask (i : Instr) : encode i &&& (tableRow i).mask = (tableRow i).pattern := by
  cases i with
  | add rd rs1 rs2 => exact Laws.TableRow.add rd rs1 rs2
  | sub rd rs1 rs2 => exact Laws.TableRow.sub rd rs1 rs2
  | sll rd rs1 rs2 => exact Laws.TableRow.sll rd rs1 rs2
  | xor rd rs1 rs2 => exact Laws.TableRow.xor rd rs1 rs2
  | srl rd rs1 rs2 => exact Laws.TableRow.srl rd rs1 rs2
  | sra rd rs1 rs2 => exact Laws.TableRow.sra rd rs1 rs2
  | or rd rs1 rs2 => exact Laws.TableRow.or rd rs1 rs2
  | and rd rs1 rs2 => exact Laws.TableRow.and rd rs1 rs2
  | addi rd rs1 imm => exact Laws.TableRow.addi rd rs1 imm
  | lw rd rs1 imm => exact Laws.TableRow.lw rd rs1 imm
  | sw rs2 rs1 imm => exact Laws.TableRow.sw rs2 rs1 imm
  | beq rs1 rs2 off => exact Laws.TableRow.beq rs1 rs2 off
  | bne rs1 rs2 off => exact Laws.TableRow.bne rs1 rs2 off
  | halt => exact Laws.TableRow.halt
  | jal rd off => exact Laws.TableRow.jal rd off
  | jalr rd rs1 imm => exact Laws.TableRow.jalr rd rs1 imm
  | lui rd imm => exact Laws.TableRow.lui rd imm
  | auipc rd imm => exact Laws.TableRow.auipc rd imm

/-- What a word decodes to and what well-formed instruction it encodes are one instruction. -/
theorem eq_of_decode {i j : Instr} (hj : j.wellFormed = true) (h : decode (encode j) = .instr i) : j = i :=
  Verdict.instr.inj ((decode_encode hj).symm.trans h)

/-- A well-formed instruction whose word has the fixed bits of a row is an instruction of that row. -/
theorem tableRow_of_row {mask pattern : Word} {f : Word → Instr} {j : Instr} (hrow : Row mask pattern f)
    (hj : j.wellFormed = true) (h : encode j &&& mask = pattern) : tableRow j = tableRow (f (encode j)) :=
  congrArg tableRow (eq_of_decode hj (hrow _ h))

/-- A well-formed instruction whose word has the fixed bits of jal's row is a jal or the halt word (R101). -/
theorem tableRow_of_row_jal {j : Instr} (rd : Reg) (off : BitVec 21) (hj : j.wellFormed = true)
    (h : encode j &&& 0x0000007F = 0x0000006F) : tableRow j = tableRow (.jal rd off) ∨ j = .halt := by
  by_cases hne : encode j = 0x0000006F
  · exact .inr (eq_of_decode hj (hne ▸ row_halt _ rfl))
  · exact .inl (congrArg tableRow (eq_of_decode hj (row_jal h hne)) :)

/-- Settles O4: the word of `j` is an instruction of the row, so `j` is. -/
theorem encodingsMatchTheOpcodeTable : Obligations.EncodingsMatchTheOpcodeTable := by
  refine ⟨encode_and_mask, fun i j _ hj h => ?_⟩
  cases i with
  | add _ _ _ => exact .inl (tableRow_of_row row_add hj h)
  | sub _ _ _ => exact .inl (tableRow_of_row row_sub hj h)
  | sll _ _ _ => exact .inl (tableRow_of_row row_sll hj h)
  | xor _ _ _ => exact .inl (tableRow_of_row row_xor hj h)
  | srl _ _ _ => exact .inl (tableRow_of_row row_srl hj h)
  | sra _ _ _ => exact .inl (tableRow_of_row row_sra hj h)
  | or _ _ _ => exact .inl (tableRow_of_row row_or hj h)
  | and _ _ _ => exact .inl (tableRow_of_row row_and hj h)
  | addi _ _ _ => exact .inl (tableRow_of_row row_addi hj h)
  | lw _ _ _ => exact .inl (tableRow_of_row row_lw hj h)
  | sw _ _ _ => exact .inl (tableRow_of_row row_sw hj h)
  | beq _ _ _ => exact .inl (tableRow_of_row row_beq hj h)
  | bne _ _ _ => exact .inl (tableRow_of_row row_bne hj h)
  | halt => exact .inl (tableRow_of_row row_halt hj h)
  | jal rd off => exact (tableRow_of_row_jal rd off hj h).imp_right fun hh => ⟨hh, rd, off, rfl⟩
  | jalr _ _ _ => exact .inl (tableRow_of_row row_jalr hj h)
  | lui _ _ => exact .inl (tableRow_of_row row_lui hj h)
  | auipc _ _ => exact .inl (tableRow_of_row row_auipc hj h)

end Sys2Proof.Proofs
end

section
/-! PROOF. The words that are no instruction under every policy: R73's list, the two groups of R74, and the step that
fetches one of them. -/

namespace Sys2Proof.Proofs

open Sys2Proof.Machine Sys2Proof.Claims

/-! ### The three verdicts, helper by helper -/

section Verdicts

variable {w : Word}

theorem byFunct7_illegal_iff {at00 at20 : Instr} :
    (∃ why, byFunct7 w at00 at20 = .illegal why) ↔ funct7Of w ∉ [0x00#7, 0x20#7] := by
  unfold byFunct7
  split_ifs with h0 h20 <;> simp_all

theorem settledIfFunct7Zero_not_illegal {i : Instr} : ¬ ∃ why, settledIfFunct7Zero w i = .illegal why := by
  unfold settledIfFunct7Zero
  split_ifs <;> simp

theorem onlyFunct3_illegal_iff {f3 : BitVec 3} {i : Instr} :
    (∃ why, onlyFunct3 w f3 i = .illegal why) ↔ funct3Of w ≠ f3 := by
  unfold onlyFunct3
  split_ifs with h3 <;> simp [h3]

theorem byFunct7_not_unsettled {at00 at20 : Instr} : ¬ ∃ g i, byFunct7 w at00 at20 = .unsettled g i := by
  unfold byFunct7
  split_ifs <;> simp

theorem settledIfFunct7Zero_unsettled_iff {j : Instr} :
    (∃ g i, settledIfFunct7Zero w j = .unsettled g i) ↔ funct7Of w ≠ 0 := by
  unfold settledIfFunct7Zero
  split_ifs with h0
  · simp [h0]
  · simp_all

theorem onlyFunct3_not_unsettled {f3 : BitVec 3} {j : Instr} : ¬ ∃ g i, onlyFunct3 w f3 j = .unsettled g i := by
  unfold onlyFunct3
  split_ifs <;> simp

theorem decodeRegister_illegal_iff :
    (∃ why, decodeRegister w = .illegal why) ↔
      funct3Of w ∈ [2#3, 3#3] ∨ funct3Of w ∈ [0#3, 5#3] ∧ funct7Of w ∉ [0x00#7, 0x20#7] := by
  unfold decodeRegister
  split_ifs with h0 h1 h4 h5 h6 h7
  · rw [byFunct7_illegal_iff]; simp [h0]
  · simp [h1, settledIfFunct7Zero_not_illegal]
  · simp [h4, settledIfFunct7Zero_not_illegal]
  · rw [byFunct7_illegal_iff]; simp [h5]
  · simp [h6, settledIfFunct7Zero_not_illegal]
  · simp [h7, settledIfFunct7Zero_not_illegal]
  · have h23 : funct3Of w ∈ [2#3, 3#3] := by
      generalize funct3Of w = f3 at *
      revert f3; decide
    simp [h23]

theorem decodeRegister_unsettled_iff :
    (∃ g i, decodeRegister w = .unsettled g i) ↔ funct3Of w ∈ [1#3, 4#3, 6#3, 7#3] ∧ funct7Of w ≠ 0 := by
  unfold decodeRegister
  split_ifs with h0 h1 h4 h5 h6 h7
  · simp [h0, byFunct7_not_unsettled]
  · rw [settledIfFunct7Zero_unsettled_iff]; simp [h1]
  · rw [settledIfFunct7Zero_unsettled_iff]; simp [h4]
  · simp [h5, byFunct7_not_unsettled]
  · rw [settledIfFunct7Zero_unsettled_iff]; simp [h6]
  · rw [settledIfFunct7Zero_unsettled_iff]; simp [h7]
  · simp_all

theorem decodeBranch_illegal_iff : (∃ why, decodeBranch w = .illegal why) ↔ funct3Of w ∉ [0#3, 1#3] := by
  unfold decodeBranch
  split_ifs with h0 h1
  · simp [h0]
  · simp [h1]
  · simp_all

theorem decodeBranch_not_unsettled : ¬ ∃ g i, decodeBranch w = .unsettled g i := by
  unfold decodeBranch
  split_ifs <;> simp

theorem decodeJal_not_illegal : ¬ ∃ why, decodeJal w = .illegal why := by
  unfold decodeJal
  split_ifs <;> simp

theorem decodeJal_not_unsettled : ¬ ∃ g i, decodeJal w = .unsettled g i := by
  unfold decodeJal
  split_ifs <;> simp

theorem decodeJalr_not_illegal : ¬ ∃ why, decodeJalr w = .illegal why := by
  unfold decodeJalr
  split_ifs <;> simp

theorem decodeJalr_unsettled_iff : (∃ g i, decodeJalr w = .unsettled g i) ↔ funct3Of w ≠ 0 := by
  unfold decodeJalr
  split_ifs with h0
  · simp [h0]
  · simp_all

/-! ### The words of R73 and R74 -/

theorem extractLsb'_opcode (w : Word) : w.extractLsb' 0 7 = opcodeOf w := rfl

theorem extractLsb'_funct3 (w : Word) : w.extractLsb' 12 3 = funct3Of w := rfl

theorem extractLsb'_funct7 (w : Word) : w.extractLsb' 25 7 = funct7Of w := rfl

/-- The dispatch table gives exactly R73's words no instruction and leaves them to no policy: opcode by opcode. -/
theorem decode_illegal_iff : (∃ why, decode w = .illegal why) ↔ IllegalByRule w := by
  simp only [IllegalByRule, extractLsb'_opcode, extractLsb'_funct3, extractLsb'_funct7]
  unfold decode
  split_ifs with hreg himm hload hstore hbranch hjal hjalr hlui hauipc
  · rw [decodeRegister_illegal_iff]; simp [hreg]
  · rw [onlyFunct3_illegal_iff]; simp [himm]
  · rw [onlyFunct3_illegal_iff]; simp [hload]
  · rw [onlyFunct3_illegal_iff]; simp [hstore]
  · rw [decodeBranch_illegal_iff]; simp [hbranch]
  · simp [hjal, decodeJal_not_illegal]
  · simp [hjalr, decodeJalr_not_illegal]
  · simp [hlui]
  · simp [hauipc]
  · simp_all

/-- The dispatch table leaves exactly the two groups of R74 to a policy: opcode by opcode. -/
theorem decode_unsettled_iff : (∃ g i, decode w = .unsettled g i) ↔ RtypeUnsettled w ∨ JalrUnsettled w := by
  simp only [RtypeUnsettled, JalrUnsettled, extractLsb'_opcode, extractLsb'_funct3, extractLsb'_funct7]
  unfold decode
  split_ifs with hreg himm hload hstore hbranch hjal hjalr hlui hauipc
  · rw [decodeRegister_unsettled_iff]; simp [hreg]
  · simp [himm, onlyFunct3_not_unsettled]
  · simp [hload, onlyFunct3_not_unsettled]
  · simp [hstore, onlyFunct3_not_unsettled]
  · simp [hbranch, decodeBranch_not_unsettled]
  · simp [hjal, decodeJal_not_unsettled]
  · rw [decodeJalr_unsettled_iff]; simp [hjalr]
  · simp [hlui]
  · simp [hauipc]
  · simp_all

/-- A policy other than Refuse and Illegal executes every unsettled word, so a word that is illegal under every
configuration is so by the dispatch table alone (R73, R74). -/
theorem dispatch_illegal_iff : (∀ c, dispatch c w = .illegal) ↔ ∃ why, decode w = .illegal why := by
  refine ⟨fun h => ?_, fun ⟨why, h⟩ c => by rw [dispatch, h]; rfl⟩
  have hlenient := h ⟨false, false, .ignore, .lenient⟩
  unfold dispatch at hlenient
  cases hd : decode w with
  | instr i => rw [hd] at hlenient; cases hlenient
  | illegal why => exact ⟨why, rfl⟩
  | unsettled g i => rw [hd] at hlenient; cases g <;> cases hlenient

/-- The verdict on a word of R74's first group (D15). -/
theorem decode_rtypeUnsettled (h : RtypeUnsettled w) : decode w = .unsettled .rtypeFunct7 (namedByFunct3 w) := by
  simp only [RtypeUnsettled, extractLsb'_opcode, extractLsb'_funct3, extractLsb'_funct7] at h
  obtain ⟨hop, h3, h7⟩ := h
  have hd : decode w = decodeRegister w := if_pos hop
  have hs : ∀ i, settledIfFunct7Zero w i = .unsettled .rtypeFunct7 i := fun i => if_neg h7
  simp only [List.mem_cons, List.not_mem_nil, or_false] at h3
  rcases h3 with h3 | h3 | h3 | h3 <;>
    simp [hd, decodeRegister, namedByFunct3, extractLsb'_funct3, h3, hs, rdOf, rs1Of, rs2Of]

/-- The verdict on a word of R74's second group (D14). -/
theorem decode_jalrUnsettled (h : JalrUnsettled w) :
    decode w = .unsettled .jalrFunct3 (.jalr (rdOf w) (rs1Of w) (immIOf w)) := by
  obtain ⟨hop, h3⟩ := h
  have hd : decode w = decodeJalr w := by
    unfold decode; rw [show opcodeOf w = 0x67#7 from hop]; rfl
  rw [hd]
  exact if_neg h3

end Verdicts

/-! ### The step of an illegal word -/

/-- A step that is taken and finds IllegalInstruction records it and changes nothing else (R107). -/
theorem stepIsIllegal_of_dispatch {s : State} {w : Word} (hc : MayStep s) (hw : fetch s = .ok w)
    (hd : dispatch s.config w = .illegal) : StepIsIllegal s w := by
  have hstep := step_illegal (mayStep_iff.1 hc) hw hd
  have hdiag : stepDiagnostic s = none := by simp [stepDiagnostic, fetchAction, hw, hd]
  obtain ⟨_, hfault, hmark⟩ := hc
  refine ⟨_, hstep, rfl, fun _ => rfl, rfl, fun _ _ => rfl, hfault, hmark, rfl, hdiag, ?_⟩
  rw [hstep]
  simp [outcomeOf, stateOutcome, hfault]

/-- Settles O5: the dispatch table's illegal words are R73's, and every configuration takes them as such. -/
theorem illegalWordsAreThoseListed : Obligations.IllegalWordsAreThoseListed := by
  intro w
  have hall : IllegalByRule w ↔ ∀ c, dispatch c w = .illegal := by rw [dispatch_illegal_iff, decode_illegal_iff]
  exact ⟨hall, fun s hc hw hill => stepIsIllegal_of_dispatch hc hw (hall.1 hill s.config)⟩

/-! ### The step of an unsettled word -/

section Unsettled

variable {s : State} {w : Word} {g : Unsettled} {i : Instr}

/-- The step of an unsettled word, as the configuration's policy for its group acts (R74). -/
theorem step_unsettled (hc : MayStep s) (hw : fetch s = .ok w) (hv : decode w = .unsettled g i) :
    (unsettledAction s.config g i = .illegal → StepIsIllegal s w) ∧
    (unsettledAction s.config g i = .execute i → step s = exec i (closeLoader s)) ∧
    (unsettledAction s.config g i = .refuse → step s = .refused (.unsettledWord s.pc w)) := by
  have hd : dispatch s.config w = unsettledAction s.config g i := by rw [dispatch, hv]; rfl
  refine ⟨fun ha => ?_, fun ha => ?_, fun ha => ?_⟩ <;> rw [ha] at hd
  · exact stepIsIllegal_of_dispatch hc hw hd
  · exact step_ran (mayStep_iff.1 hc) hw hd
  · exact step_refused (mayStep_iff.1 hc) hw hd

/-- A core whose step is refused answers the same refusal at every later step (R28, R74; log 10). -/
theorem step_coreAfter_refused {pc : Word} (h : step s = .refused (.unsettledWord pc w)) :
    step (coreAfter s (step s)) = .refused (.unsettledWord pc w) := by
  have hmark := coreAfter_refusedMark h
  have hno : canStep (coreAfter s (step s)) = false := by simp [canStep, hmark]
  rw [step_noStep hno, repeatTerminal_marked hmark]

/-- A refused step leaves the core as it was but for the mark and the loader interface (R74; logs 10 and 12). -/
theorem coreAfter_refused {pc : Word} (hc : MayStep s) (h : step s = .refused (.unsettledWord pc w)) :
    coreAfter s (step s) = markRefused (closeLoader s) pc w := by
  rw [h]
  simp [coreAfter, coreRefused, mayStep_iff.1 hc]

end Unsettled

/-- Settles O6: the verdict names the group and the instruction, and the policy picks the step. -/
theorem unsettledWordsFollowTheirPolicy : Obligations.UnsettledWordsFollowTheirPolicy := by
  refine ⟨fun w => decode_unsettled_iff, fun s w hc hw hr => ?_, fun s w hc hw hj => ?_, fun s pc w h =>
    ⟨fun hc => coreAfter_refused hc h, step_coreAfter_refused h⟩, rfl, rfl⟩
  · obtain ⟨hillegal, hran, hrefused⟩ := step_unsettled hc hw (decode_rtypeUnsettled hr)
    exact ⟨fun hp => hillegal (by simp [unsettledAction, hp]), fun hp => hran (by simp [unsettledAction, hp]),
      fun hp => hrefused (by simp [unsettledAction, hp])⟩
  · obtain ⟨hillegal, hran, hrefused⟩ := step_unsettled hc hw (decode_jalrUnsettled hj)
    exact ⟨fun hp => hillegal (by simp [unsettledAction, hp]), fun hp => hran (by simp [unsettledAction, hp]),
      fun hp => hrefused (by simp [unsettledAction, hp])⟩

end Sys2Proof.Proofs
end

section
/-! PROOF. The bit-field codec (R60, R61) and the five immediates as integers (R65 to R69). -/

namespace Sys2Proof.Proofs

open Sys2Proof.Machine Sys2Proof.Claims

/-! ### extract_bits (R60) -/

/-- Inside its contract extract_bits is the field of the word, zero-extended. -/
theorem extractBits_eq (v : Word) {hi lo : Nat} (hhi : hi ≤ 31) (hlo : lo ≤ hi) :
    extractBits v hi lo = some ((v.extractLsb' lo (hi - lo + 1)).setWidth 32) := by
  rw [extractBits, if_pos ⟨hhi, hlo⟩]
  apply congrArg some
  apply BitVec.eq_of_toNat_eq
  simp [BitVec.extractLsb'_toNat, Nat.shiftRight_eq_div_pow]

/-- Outside its contract extract_bits is refused. -/
theorem extractBits_eq_none (v : Word) {hi lo : Nat} (h : 31 < hi ∨ hi < lo) : extractBits v hi lo = none :=
  if_neg (by omega)

/-- Settles O8: extract_bits is `extractLsb'`, which the decoder's fields are by definition. -/
theorem extractBitsReadsTheField : Obligations.ExtractBitsReadsTheField := by
  refine ⟨fun v hi lo hhi hlo => ⟨_, extractBits_eq v hhi hlo, fun k => ?_⟩, fun v hi lo => extractBits_eq_none v,
    fun w => ⟨?_, ?_, ?_, ?_, ?_, ?_, fun range hr => ?_⟩⟩
  · have hk : k < hi - lo + 1 ↔ k ≤ hi - lo := Nat.lt_succ_iff
    have h32 : k ≤ hi - lo → k < 32 := by omega
    by_cases hle : k ≤ hi - lo <;> simp [BitVec.getLsbD_setWidth, BitVec.getLsbD_extractLsb', hk, hle, h32]
  · exact extractBits_eq w (by decide) (by decide)
  · exact extractBits_eq w (by decide) (by decide)
  · exact extractBits_eq w (by decide) (by decide)
  · exact extractBits_eq w (by decide) (by decide)
  · exact extractBits_eq w (by decide) (by decide)
  · exact extractBits_eq w (by decide) (by decide)
  · have hvalid : range.1 ≤ 31 ∧ range.2 ≤ range.1 := by revert range; decide
    rw [extractBits_eq w hvalid.1 hvalid.2]; rfl

/-! ### sign_extend (R61) -/

/-- Bit k of the word with ones from bit `n` up, which sign_extend makes the sign's copies of. -/
theorem getLsbD_onesFrom {n k : Nat} (hk : k < 32) : (0xFFFFFFFF#32 <<< n).getLsbD k = decide (n ≤ k) := by
  have hones : 0xFFFFFFFF#32 = BitVec.allOnes 32 := rfl
  have hlow : k - n < 32 := by omega
  simp only [hones, BitVec.getLsbD_shiftLeft, BitVec.getLsbD_allOnes, hk, hlow]
  by_cases hn : n ≤ k
  · simp [hn]
  · simp [hn, Nat.lt_of_not_le hn]

/-- The bit that sign_extend copies to place k (R61). -/
theorem min_pred_eq_ite {n : Nat} (k : Nat) (h1 : 1 ≤ n) : min k (n - 1) = if n ≤ k then n - 1 else k := by
  split_ifs <;> omega

/-- The native widening of the low `n` bits copies bit `n - 1` into every bit above. -/
theorem getLsbD_signExtend_setWidth (v : Word) {n k : Nat} (h1 : 1 ≤ n) (hk : k < 32) :
    ((v.setWidth n).signExtend 32).getLsbD k = v.getLsbD (min k (n - 1)) := by
  have hlast : n - 1 < n := by omega
  rw [min_pred_eq_ite k h1, BitVec.getLsbD_signExtend, BitVec.msb_eq_getLsbD_last]
  by_cases hkn : n ≤ k
  · simp [hk, hkn, hlast]
  · simp [hk, hkn, Nat.lt_of_not_le hkn]

/-- Inside its contract sign_extend is the native signed widening of the low bits. -/
theorem signExtendBits_eq (v : Word) {n : Nat} (h1 : 1 ≤ n) (h32 : n ≤ 32) :
    signExtendBits v n = some ((v.setWidth n).signExtend 32) := by
  unfold signExtendBits
  split_ifs with heq hlt hs
  · subst heq; simp
  · apply congrArg some
    apply BitVec.eq_of_getLsbD_eq
    intro k hk
    rw [getLsbD_signExtend_setWidth v h1 hk, min_pred_eq_ite k h1, BitVec.getLsbD_or, BitVec.getLsbD_and,
      BitVec.getLsbD_not, getLsbD_onesFrom hk]
    by_cases hkn : n ≤ k <;> simp [hkn, hk, hs]
  · apply congrArg some
    apply BitVec.eq_of_getLsbD_eq
    intro k hk
    rw [getLsbD_signExtend_setWidth v h1 hk, min_pred_eq_ite k h1, BitVec.getLsbD_and, BitVec.getLsbD_not,
      getLsbD_onesFrom hk]
    by_cases hkn : n ≤ k <;> simp [hkn, hk, hs]
  · exact absurd ⟨h1, Nat.lt_of_le_of_ne h32 heq⟩ hlt

/-- Outside its contract sign_extend is refused. -/
theorem signExtendBits_eq_none (v : Word) {n : Nat} (h : n = 0 ∨ 32 < n) : signExtendBits v n = none := by
  rw [signExtendBits, if_neg (by omega), if_neg (by omega)]

/-- sign_extend of a field held in a word is the field's own widening. -/
theorem signExtendBits_setWidth {n : Nat} (x : BitVec n) (h1 : 1 ≤ n) (h32 : n ≤ 32) :
    signExtendBits (x.setWidth 32) n = some (x.signExtend 32) := by
  rw [signExtendBits_eq _ h1 h32, BitVec.setWidth_setWidth_of_le x h32, BitVec.setWidth_eq]

/-- Settles O9: sign_extend is `signExtend` of the low bits, which the decoder's immediates are by definition. -/
theorem signExtendReplicatesTheTopBit : Obligations.SignExtendReplicatesTheTopBit := by
  refine ⟨fun v n h1 h32 => ⟨_, signExtendBits_eq v h1 h32, signExtendBits_setWidth _ h1 h32,
    fun k hk => getLsbD_signExtend_setWidth v h1 hk, BitVec.toInt_signExtend_of_le h32⟩,
    fun v n => signExtendBits_eq_none v, fun w => ⟨?_, ?_, ?_, ?_⟩⟩
  · exact signExtendBits_setWidth (immIOf w) (by decide) (by decide)
  · exact signExtendBits_setWidth (immSOf w) (by decide) (by decide)
  · exact signExtendBits_setWidth (immBOf w) (by decide) (by decide)
  · exact signExtendBits_setWidth (immJOf w) (by decide) (by decide)

/-! ### The immediates as integers (R65 to R69) -/

/-- The range of a 12-bit immediate (R65, R66). -/
theorem sext12_bounds (imm : BitVec 12) : -2048 ≤ (sext12 imm).toInt ∧ (sext12 imm).toInt ≤ 2047 := by
  rw [sext12, BitVec.toInt_signExtend_of_le (by decide)]
  exact ⟨BitVec.le_toInt imm, BitVec.toInt_le⟩

section Immediates

variable (w : Word)

/-- Bit k of a word as an integer is a digit of the word's value. -/
theorem bit_eq (k : Nat) : bit w k = ((w.toNat / 2 ^ k % 2 : ℕ) : Int) := by
  have hbit : w.getLsbD k = decide (w.toNat / 2 ^ k % 2 = 1) := by
    rw [BitVec.getLsbD, Nat.testBit_eq_decide_div_mod_eq]
  rw [bit, hbit]
  by_cases h : w.toNat / 2 ^ k % 2 = 1
  · simp [h]
  · have h0 : w.toNat / 2 ^ k % 2 = 0 := by omega
    simp [h0]

/-- The unsigned value of a field. -/
theorem toNat_field (lo len : Nat) : (w.extractLsb' lo len).toNat = w.toNat / 2 ^ lo % 2 ^ len := by
  rw [BitVec.extractLsb'_toNat, Nat.shiftRight_eq_div_pow]

/-- The signed value of a field that ends at bit 31, whose sign is that bit. -/
theorem toInt_topField {lo len : Nat} (hlen : 0 < len) (h : lo + len = 32) :
    (w.extractLsb' lo len).toInt = ((w.toNat / 2 ^ lo : ℕ) : Int) - 2 ^ len * bit w 31 := by
  have hmsb : (w.extractLsb' lo len).msb = w.getLsbD 31 := by
    rw [BitVec.msb_eq_getLsbD_last, BitVec.getLsbD_extractLsb', show lo + (len - 1) = 31 by omega]
    simp [hlen]
  have htop : w.toNat / 2 ^ lo < 2 ^ len := by
    rw [Nat.div_lt_iff_lt_mul (by positivity), ← pow_add, add_comm, h]
    exact w.isLt
  rw [BitVec.toInt_eq_msb_cond, hmsb, toNat_field, Nat.mod_eq_of_lt htop, bit]
  split_ifs <;> simp

theorem immI_toInt : (decodeFields w).immI.toInt = ((w.toNat / 2 ^ 20 : ℕ) : Int) - 4096 * bit w 31 := by
  have hsext : (decodeFields w).immI.toInt = (immIOf w).toInt := BitVec.toInt_signExtend_of_le (by decide)
  rw [hsext, immIOf, toInt_topField w (by decide) rfl]
  norm_num

theorem toInt_append_eq {n m : Nat} (x : BitVec n) (y : BitVec m) (hn : n ≠ 0) :
    (x ++ y).toInt = 2 ^ m * x.toInt + (y.toNat : Int) := by
  rw [BitVec.toInt_append, if_neg (by simpa using hn)]

theorem immS_toInt : (decodeFields w).immS.toInt =
    ((w.toNat / 2 ^ 25 * 32 + w.toNat / 2 ^ 7 % 32 : ℕ) : Int) - 4096 * bit w 31 := by
  have hsext : (decodeFields w).immS.toInt = (immSOf w).toInt := BitVec.toInt_signExtend_of_le (by decide)
  rw [hsext, immSOf, toInt_append_eq _ _ (by decide), toInt_topField w (by decide) rfl, toNat_field]
  push_cast; ring

/-- The signed value of bit 31 alone, the top of the B and J immediates. -/
theorem toInt_topBit : (w.extractLsb' 31 1).toInt = -bit w 31 := by
  have hlt := w.isLt
  rw [toInt_topField w (by decide) rfl, bit_eq]
  omega

/-- The signed value of an offset of the B or J format: bit 31, three fields, and the implicit zero low bit. -/
theorem toInt_offset {m n k : Nat} (x : BitVec m) (y : BitVec n) (z : BitVec k) :
    (w.extractLsb' 31 1 ++ x ++ y ++ z ++ 0#1).toInt =
      2 * (2 ^ k * (2 ^ n * (2 ^ m * -bit w 31 + x.toNat) + y.toNat) + z.toNat) := by
  rw [toInt_append_eq _ _ (by omega), toInt_append_eq _ _ (by omega), toInt_append_eq _ _ (by omega),
    toInt_append_eq _ _ (by decide), toInt_topBit]
  simp

theorem immB_toInt : (decodeFields w).immB.toInt =
    -4096 * bit w 31 + 2048 * bit w 7 + ((w.toNat / 2 ^ 25 % 64 * 32 + w.toNat / 2 ^ 8 % 16 * 2 : ℕ) : Int) := by
  have hsext : (decodeFields w).immB.toInt = (immBOf w).toInt := BitVec.toInt_signExtend_of_le (by decide)
  rw [hsext, immBOf, toInt_offset, toNat_field, toNat_field, toNat_field, bit_eq w 7]
  push_cast; ring

theorem immJ_toInt : (decodeFields w).immJ.toInt =
    -1048576 * bit w 31 + 2048 * bit w 20 +
      ((w.toNat / 2 ^ 12 % 256 * 4096 + w.toNat / 2 ^ 21 % 1024 * 2 : ℕ) : Int) := by
  have hsext : (decodeFields w).immJ.toInt = (immJOf w).toInt := BitVec.toInt_signExtend_of_le (by decide)
  rw [hsext, immJOf, toInt_offset, toNat_field, toNat_field, toNat_field, bit_eq w 20]
  push_cast; ring

theorem immU_toNat : (decodeFields w).immU.toNat = w.toNat / 2 ^ 12 * 2 ^ 12 := by
  have hlt := w.isLt
  have hdef : (decodeFields w).immU = upperImm (immUOf w) := rfl
  rw [hdef, upperImm_eq, BitVec.toNat_ofNat, immUOf, toNat_field]
  omega

end Immediates

/-- Settles O7: the ranges of the 12-bit immediates are their width's; those of imm_B and imm_J, which are even, are
arithmetic on their formulas. -/
theorem immediatesAreTheSignedFields : Obligations.ImmediatesAreTheSignedFields := by
  intro w
  have hlt := w.isLt
  refine ⟨⟨immI_toInt w, ?_⟩, ⟨immS_toInt w, ?_⟩, ⟨immB_toInt w, ?_⟩, immU_toNat w, ⟨immJ_toInt w, ?_⟩⟩
  · exact sext12_bounds (immIOf w)
  · exact sext12_bounds (immSOf w)
  · rw [immB_toInt, bit_eq, bit_eq]; omega
  · rw [immJ_toInt, bit_eq, bit_eq]; omega

/-! ### Words written out -/

/-- Settles O1: each word is closed, and the dispatch table is evaluated at it. -/
theorem writtenOutWordsDecode : Obligations.WrittenOutWordsDecode := by
  unfold Obligations.WrittenOutWordsDecode
  decide

end Sys2Proof.Proofs
end

section
/-! PROOF. The ALU as integer arithmetic (R78, R79) and the eight register-register instructions (R81 to R89): the
result and frame of each, the words of its row, and what another funct7 means. -/

namespace Sys2Proof.Proofs

open Sys2Proof.Machine Sys2Proof.Claims

/-! ### The ALU (R78, R79) -/

section Alu

variable (a b : Word)

/-- The difference modulo 2^32, which is never negative. -/
theorem toNat_aluApply_sub : ((aluApply .sub a b).toNat : Int) = ((a.toNat : Int) - b.toNat) % 2 ^ 32 := by
  have hb := b.isLt
  have hsub : (aluApply .sub a b).toNat = (2 ^ 32 - b.toNat + a.toNat) % 2 ^ 32 := BitVec.toNat_sub a b
  omega

theorem aluApply_shiftLeftLogical : aluApply .shiftLeftLogical a b = a <<< (b.toNat % 32) := by
  rw [← shiftAmount_eq]; rfl

theorem aluApply_shiftRightLogical : aluApply .shiftRightLogical a b = a >>> (b.toNat % 32) := by
  rw [← shiftAmount_eq]; rfl

theorem aluApply_shiftRightArithmetic : aluApply .shiftRightArithmetic a b = a.sshiftRight (b.toNat % 32) := by
  rw [← shiftAmount_eq]; rfl

theorem toNat_aluApply_shiftLeftLogical :
    (aluApply .shiftLeftLogical a b).toNat = a.toNat * 2 ^ (b.toNat % 32) % 2 ^ 32 := by
  rw [aluApply_shiftLeftLogical, BitVec.toNat_shiftLeft, Nat.shiftLeft_eq]

theorem toNat_aluApply_shiftRightLogical :
    (aluApply .shiftRightLogical a b).toNat = a.toNat / 2 ^ (b.toNat % 32) := by
  rw [aluApply_shiftRightLogical, BitVec.toNat_ushiftRight, Nat.shiftRight_eq_div_pow]

/-- Copies of bit 31 shifted in make the quotient that rounds toward negative infinity. -/
theorem toInt_aluApply_shiftRightArithmetic :
    (aluApply .shiftRightArithmetic a b).toInt = a.toInt / 2 ^ (b.toNat % 32) := by
  rw [aluApply_shiftRightArithmetic, BitVec.toInt_sshiftRight, Int.shiftRight_eq_div_pow]
  norm_cast

end Alu

/-- Settles O10: the sum and the bitwise operations are the library's own laws; the difference and the three shifts
have a lemma each. -/
theorem aluResultsAreArithmetic : Obligations.AluResultsAreArithmetic := fun a b =>
  ⟨BitVec.toNat_add a b, toNat_aluApply_sub a b, fun _ => BitVec.getLsbD_and, fun _ => BitVec.getLsbD_or,
    fun _ => BitVec.getLsbD_xor, toNat_aluApply_shiftLeftLogical a b, toNat_aluApply_shiftRightLogical a b,
    toInt_aluApply_shiftRightArithmetic a b⟩

/-! ### Results and frames (R81) -/

section Results

variable {i : Instr} {s : State} {rd : Reg}

/-- An instruction whose answer is a register write and a committed pc has the frame of `Writes` (R12, R17, R22). -/
theorem writes_of_exec {v next : Word} (h : exec i s = .next (continueAt (writeReg s rd v) next)) :
    Writes i s rd v next := by
  refine ⟨_, h, ?_, fun r hr => ?_, continueAt_pc _ _, ?_, ?_⟩
  · rw [readReg_continueAt]
    exact readReg_writeReg_self s rd v
  · rw [readReg_continueAt]
    exact readReg_writeReg_other s v hr
  · exact sameBytes_writeReg s rd v
  · simp [SameControl]

/-- What the eight register-register instructions share: the ALU's result of the two sources, and pc + 4 (R81). -/
theorem writes_of_execRegister {op : AluOp} {rs1 rs2 : Reg} (h : exec i s = execRegister op rd rs1 rs2 s) :
    Writes i s rd (aluApply op (readReg s rs1) (readReg s rs2)) (s.pc + 4) :=
  writes_of_exec h

end Results

section Instructions

variable (s : State) (rd rs1 rs2 : Reg)

theorem writes_sll :
    Writes (.sll rd rs1 rs2) s rd (readReg s rs1 <<< ((readReg s rs2).toNat % 32)) (s.pc + 4) := by
  rw [← aluApply_shiftLeftLogical]
  exact writes_of_execRegister rfl

theorem writes_srl :
    Writes (.srl rd rs1 rs2) s rd (readReg s rs1 >>> ((readReg s rs2).toNat % 32)) (s.pc + 4) := by
  rw [← aluApply_shiftRightLogical]
  exact writes_of_execRegister rfl

theorem writes_sra :
    Writes (.sra rd rs1 rs2) s rd ((readReg s rs1).sshiftRight ((readReg s rs2).toNat % 32)) (s.pc + 4) := by
  rw [← aluApply_shiftRightArithmetic]
  exact writes_of_execRegister rfl

end Instructions

/-! ### Another funct7 (R73, R74) -/

/-- The funct3 of add and sub and that of srl and sra have no other funct7 (R73). -/
theorem funct7Illegal {funct3 : BitVec 3} (h : funct3 ∈ [0#3, 5#3]) : Funct7Illegal funct3 := by
  intro w hop h3 h00 h20
  have h7 : w.extractLsb' 25 7 ∉ [0x00#7, 0x20#7] := by simpa using And.intro h00 h20
  have hrule : IllegalByRule w := .inr (.inr (.inl ⟨hop, h3 ▸ h, h7⟩))
  exact dispatch_illegal_iff.2 (decode_illegal_iff.2 hrule)

/-- With the funct3 of sll, xor, or and and, RTYPE_FUNCT7_POLICY settles every other funct7 (R74). -/
theorem funct7ByPolicy {funct3 : BitVec 3} {f : Word → Instr} (h : funct3 ∈ [1#3, 4#3, 6#3, 7#3])
    (hf : ∀ w : Word, w.extractLsb' 12 3 = funct3 → namedByFunct3 w = f w) : Funct7ByPolicy funct3 f := by
  intro w hop h3 h7 c
  rw [dispatch, decode_rtypeUnsettled ⟨hop, h3 ▸ h, h7⟩, hf w h3]
  rfl

/-! ### The instructions -/

/-- Settles O11: result and frame are what the register instructions share, at the operations Add and Sub. -/
theorem addSubResults : Obligations.AddSubResults :=
  ⟨fun _ _ _ _ => ⟨writes_of_execRegister (op := .add) rfl, writes_of_execRegister (op := .sub) rfl⟩,
    row_add, row_sub, funct7Illegal (by decide)⟩

/-- Settles O12: the ALU's shift amount is x[rs2] mod 32. -/
theorem shiftResults : Obligations.ShiftResults :=
  ⟨fun s rd rs1 rs2 => ⟨writes_sll s rd rs1 rs2, writes_srl s rd rs1 rs2, writes_sra s rd rs1 rs2⟩,
    row_sll, row_srl, row_sra,
    funct7ByPolicy (by decide) fun _ h3 => by simp [namedByFunct3, h3], funct7Illegal (by decide)⟩

/-- Settles O13: result and frame are what the register instructions share, at the operations Xor, Or and And. -/
theorem logicResults : Obligations.LogicResults :=
  ⟨fun _ _ _ _ => ⟨writes_of_execRegister (op := .xor) rfl, writes_of_execRegister (op := .or) rfl,
      writes_of_execRegister (op := .and) rfl⟩,
    row_xor, row_or, row_and,
    funct7ByPolicy (by decide) fun _ h3 => by simp [namedByFunct3, h3],
    funct7ByPolicy (by decide) fun _ h3 => by simp [namedByFunct3, h3],
    funct7ByPolicy (by decide) fun _ h3 => by simp [namedByFunct3, h3]⟩

end Sys2Proof.Proofs
end

section
/-! PROOF. addi (R90), and what another funct3 means for an opcode whose funct3s R73 lists. -/

namespace Sys2Proof.Proofs

open Sys2Proof.Machine Sys2Proof.Claims

/-- Where R73 lists every other funct3 of an opcode, no policy gives it a meaning. -/
theorem otherFunct3Illegal {opcode : BitVec 7} {listed : List (BitVec 3)}
    (h : ∀ w : Word, w.extractLsb' 0 7 = opcode → w.extractLsb' 12 3 ∉ listed → IllegalByRule w) :
    OtherFunct3Illegal opcode listed :=
  fun w hop h3 => dispatch_illegal_iff.2 (decode_illegal_iff.2 (h w hop h3))

/-- addi answers one register write, of the sum with the sign-extended immediate, and the next pc (R90). -/
theorem writes_addi (s : State) (rd rs1 : Reg) (imm : BitVec 12) :
    Writes (.addi rd rs1 imm) s rd (readReg s rs1 + imm.signExtend 32) (s.pc + 4) :=
  writes_of_exec rfl

/-- addi is the only instruction of opcode 0x13 (R73). -/
theorem otherFunct3Illegal_immediate : OtherFunct3Illegal 0x13 [0#3] := by
  refine otherFunct3Illegal fun w hop h3 => ?_
  have hne : w.extractLsb' 12 3 ≠ 0 := List.ne_of_not_mem_cons h3
  exact .inr (.inr (.inr (.inl ⟨hop, hne⟩)))

/-- Settles O14: the register write of the sum, addi's row, and R73's item for opcode 0x13. -/
theorem addiResult : Obligations.AddiResult :=
  ⟨writes_addi, row_addi, otherFunct3Illegal_immediate⟩

end Sys2Proof.Proofs
end

section
/-! PROOF. lw and sw (R91 to R94): the effective address as an integer, and the two instructions' results, faults and
diagnostics from the memory operations'. -/

namespace Sys2Proof.Proofs

open Sys2Proof.Machine Sys2Proof.Claims

/-! ### A load after a store (R94) -/

/-- Settles O16: the store leaves the memory with the word put, from which the load reads it back. -/
theorem storeThenLoadReturnsTheWord : Obligations.StoreThenLoadReturnsTheWord := by
  intro s ea v hwf h
  refine ⟨_, memWrite_inRange h v, ?_⟩
  simp only [memRead, setDmem_dmem, loadU32_putWord hwf h]

/-! ### The effective address (R91) -/

/-- Modulo 2^32 the second addend of a sum of words may be read as signed. -/
theorem toNat_add_toInt (a b : Word) : ((a + b).toNat : Int) = ((a.toNat : Int) + b.toInt) % 2 ^ 32 := by
  have hb : (b.toInt - b.toNat) % 2 ^ 32 = 0 := by
    rw [BitVec.toInt_eq_toNat_cond]
    split <;> simp
  rw [BitVec.toNat_add]
  omega

/-- Settles O17: the displacement keeps its signed value when it is extended to 32 bits. -/
theorem effectiveAddressWraps : Obligations.EffectiveAddressWraps := by
  intro s rs1 imm
  have hsext : (sext12 imm).toInt = imm.toInt := BitVec.toInt_signExtend_of_le (by decide)
  rw [effectiveAddress, toNat_add_toInt, hsext]

/-! ### The diagnostic (R110) -/

/-- An instruction that accesses data memory emits its diagnostic exactly when WARN_UNALIGNED is true and the address
is no multiple of 4. -/
theorem instrDiagnostic_of_dataAccess {i : Instr} {s : State} {kind : AccessKind} {ea : Word}
    (h : dataAccess i s = some ⟨kind, ea⟩) :
    instrDiagnostic i s = if s.config.warnUnaligned = true ∧ ea.toNat % 4 ≠ 0 then some ⟨kind, ea⟩ else none := by
  rw [instrDiagnostic, h, Option.filter_some, unaligned_eq]
  simp only [Bool.and_eq_true, decide_eq_true_eq]

/-! ### Other funct3 (R73) -/

/-- lw is the only instruction of opcode 0x03. -/
theorem otherFunct3Illegal_load : OtherFunct3Illegal 0x03 [2#3] := by
  refine otherFunct3Illegal fun w hop h3 => ?_
  have hne : w.extractLsb' 12 3 ≠ 2 := List.ne_of_not_mem_cons h3
  exact .inr (.inr (.inr (.inr (.inl ⟨hop, hne⟩))))

/-- sw is the only instruction of opcode 0x23. -/
theorem otherFunct3Illegal_store : OtherFunct3Illegal 0x23 [2#3] := by
  refine otherFunct3Illegal fun w hop h3 => ?_
  have hne : w.extractLsb' 12 3 ≠ 2 := List.ne_of_not_mem_cons h3
  exact .inr (.inr (.inr (.inr (.inr (.inl ⟨hop, hne⟩)))))

/-! ### lw (R92) -/

/-- lw whose read succeeds answers one register write, of the word read, and the next pc. -/
theorem lw_writes {s : State} {rs1 : Reg} {imm : BitVec 12} {v : Word} (rd : Reg)
    (h : memRead s (effectiveAddress s rs1 imm) = .ok v) : Writes (.lw rd rs1 imm) s rd v (s.pc + 4) := by
  apply writes_of_exec
  simp only [exec, execLw, h, finishWithResult, pcPlus4]

/-- Settles O18: in range lw is the read and a register write, out of range a latched fault, whichever rd is. -/
theorem lwResult : Obligations.LwResult := by
  refine ⟨fun s rd rs1 imm => ⟨fun h => ?_, fun h => lw_latches rd h, instrDiagnostic_of_dataAccess rfl⟩,
    row_lw, otherFunct3Illegal_load⟩
  obtain ⟨b0, b1, b2, b3, hbytes, hread⟩ := memRead_bytes h
  exact ⟨b0, b1, b2, b3, hbytes, lw_writes rd hread⟩

/-! ### sw (R93) -/

/-- sw in range answers the state with the word put in data memory and the next pc, and nothing else changed. -/
theorem exec_sw_inRange {s : State} {rs1 : Reg} {imm : BitVec 12} (rs2 : Reg)
    (h : (effectiveAddress s rs1 imm).toNat + 4 ≤ s.dmem.size) :
    exec (.sw rs2 rs1 imm) s = .next (continueAt
      (setDmem s (s.dmem.putWord (effectiveAddress s rs1 imm).toNat (readReg s rs2))) (s.pc + 4)) := by
  simp only [exec, execSw, memWrite_inRange h, pcPlus4]

/-- Settles O19: in range sw puts one word in data memory, out of range it latches a fault. -/
theorem swResult : Obligations.SwResult := by
  refine ⟨fun s rs2 rs1 imm hwf h => ?_, fun s rs2 rs1 imm h => sw_latches rs2 h,
    fun s rs2 rs1 imm => instrDiagnostic_of_dataAccess rfl, row_sw, otherFunct3Illegal_store⟩
  exact ⟨_, exec_sw_inRange rs2 h, fourBytes_putWord hwf h (readReg s rs2),
    fun b hb => byte?_putWord_other s.dmem _ _ hb, fun _ => rfl, fun _ => rfl, rfl, by simp [SameControl]⟩

end Sys2Proof.Proofs
end

section
/-! PROOF. beq, bne, jal, the halt word and jalr (R95 to R102): what each writes and leaves unchanged, the words of
their rows, and that a step which halts fetched the halt word. -/

namespace Sys2Proof.Proofs

open Sys2Proof.Machine Sys2Proof.Claims

/-! ### Branches (R98, R99) -/

section Branches

variable {i : Instr} {s : State} {rs1 rs2 : Reg}

/-- An instruction whose answer is a committed pc alone has the frame of `Moves` (R12, R22). -/
theorem moves_of_exec {next : Word} (h : exec i s = .next (continueAt s next)) : Moves i s next :=
  ⟨_, h, fun _ => rfl, rfl, fun _ _ => rfl, by simp [SameControl]⟩

/-- What the two branches share: the target if taken, else pc + 4 (R95). -/
theorem moves_of_branchIf {taken : Bool} {off : BitVec 13} (h : exec i s = branchIf taken off s) :
    Moves i s (if taken then s.pc + off.signExtend 32 else s.pc + 4) :=
  moves_of_exec h

theorem regsEqual_iff : regsEqual s rs1 rs2 = true ↔ readReg s rs1 = readReg s rs2 := beq_iff_eq

theorem regsDiffer_iff : regsDiffer s rs1 rs2 = true ↔ ¬ readReg s rs1 = readReg s rs2 := bne_iff_ne

end Branches

theorem moves_beq (s : State) (rs1 rs2 : Reg) (off : BitVec 13) :
    Moves (.beq rs1 rs2 off) s
      (if readReg s rs1 = readReg s rs2 then s.pc + off.signExtend 32 else s.pc + 4) := by
  have htaken : Moves (.beq rs1 rs2 off) s _ := moves_of_branchIf (taken := regsEqual s rs1 rs2) rfl
  simpa only [regsEqual_iff] using htaken

theorem moves_bne (s : State) (rs1 rs2 : Reg) (off : BitVec 13) :
    Moves (.bne rs1 rs2 off) s
      (if readReg s rs1 = readReg s rs2 then s.pc + 4 else s.pc + off.signExtend 32) := by
  have htaken : Moves (.bne rs1 rs2 off) s _ := moves_of_branchIf (taken := regsDiffer s rs1 rs2) rfl
  simpa only [regsDiffer_iff, ite_not] using htaken

/-- beq and bne are the only instructions of opcode 0x63 (R73). -/
theorem otherFunct3Illegal_branch : OtherFunct3Illegal 0x63 [0#3, 1#3] :=
  otherFunct3Illegal fun _ hop h3 => .inr (.inr (.inr (.inr (.inr (.inr ⟨hop, h3⟩)))))

/-- Settles O21: both branches commit a pc and nothing else; the comparison is of the two registers' patterns. -/
theorem branchResults : Obligations.BranchResults :=
  ⟨fun s rs1 rs2 off => ⟨moves_beq s rs1 rs2 off, moves_bne s rs1 rs2 off⟩, row_beq, row_bne,
    otherFunct3Illegal_branch⟩

/-! ### jal (R100) -/

/-- Sign extension keeps the value of an offset, so only the offset 0 extends to 0. -/
theorem sext21_eq_zero {off : BitVec 21} : sext21 off = 0 ↔ off = 0 := by
  have hsext : (sext21 off).toInt = off.toInt := BitVec.toInt_signExtend_of_le (by decide)
  rw [← BitVec.toInt_inj, ← BitVec.toInt_inj, hsext]
  rfl

/-- An instruction whose answer is the Halted state has the frame of `Halts` (R101). -/
theorem halts_of_exec {i : Instr} {s : State} (h : exec i s = .next (enterHalted s)) : Halts i s :=
  ⟨_, h, rfl, fun _ => rfl, fun _ _ => rfl, rfl, rfl, rfl, rfl⟩

/-- Away from rd = x0 with offset 0, jal answers the link and the target. -/
theorem exec_jal (s : State) {rd : Reg} {off : BitVec 21} (h : ¬ (rd = 0 ∧ off = 0)) :
    exec (.jal rd off) s = linkAndJump rd (jumpTarget s off) s := by
  rw [← sext21_eq_zero] at h
  exact if_neg h

/-- With rd = x0 and offset 0, jal is the halt convention (R101; log 18). -/
theorem exec_jal_zero (s : State) : exec (.jal 0 0) s = .next (enterHalted s) :=
  show execJal 0 0 s = _ from if_pos ⟨rfl, sext21_eq_zero.2 rfl⟩

/-- Settles O22: link and target by the frame of a register write; the row without the halt word is jal's. -/
theorem jalResult : Obligations.JalResult :=
  ⟨fun s _ _ h => writes_of_exec (exec_jal s h), fun s => halts_of_exec (exec_jal_zero s), fun _ => row_jal⟩

/-! ### The halt word (R101) -/

/-- A Halted core without a fault or a mark has no step: it answers itself (R28; log 9). -/
theorem step_of_halted {s : State} (hrun : s.runState = .halted) (hfault : s.fault = none)
    (hmark : s.refusedMark = none) : step s = .next s := by
  have hno : canStep s = false := by simp [canStep, hrun]
  rw [step_noStep hno]
  simp [repeatTerminal, hfault, hmark]

/-- A Halted core without a fault stands for the outcome Halt (R34). -/
theorem stateOutcome_halted {s : State} (hrun : s.runState = .halted) (hfault : s.fault = none) :
    stateOutcome s = .halt := by
  simp [stateOutcome, hrun, hfault]

/-- The one word of the halt row (R101). -/
theorem decode_eq_halt_iff {w : Word} : decode w = .instr .halt ↔ w = 0x0000006F :=
  ⟨decode_halt_word, by rintro rfl; exact row_halt _ rfl⟩

/-- A step that fetches the halt word enters Halted, under every configuration. -/
theorem step_halt_word {s : State} (hc : MayStep s) (hw : fetch s = .ok 0x0000006F) :
    step s = .next (enterHalted (closeLoader s)) :=
  step_ran (mayStep_iff.1 hc) hw (dispatch_of_decode s.config (decode_eq_halt_iff.2 rfl))

/-- The one well-formed instruction that takes a core to Halted is halt: no other shape of answer changes the run
state. -/
theorem eq_halt_of_exec {i : Instr} {s t : State} (h : exec i s = .next t) (hi : i.wellFormed = true)
    (hs : s.runState = .running) (ht : t.runState = .halted) : i = .halt := by
  cases exec_next_shape h with
  | halted himp => exact himp hi
  | _ => simp [hs] at ht

/-- A step that leaves a Halted core fetched the halt word: neither a fetch fault nor an illegal word halts. -/
theorem fetch_of_step_halted {s t : State} (hc : MayStep s) (h : step s = .next t) (ht : t.runState = .halted) :
    fetch s = .ok 0x0000006F := by
  have hrun : s.runState = .running := hc.1
  cases step_next_shape h with
  | unchanged _ _ _ => simp [hrun] at ht
  | fetchFault _ _ => simp [hrun] at ht
  | illegal _ _ _ _ => simp at ht
  | ran _ w i hw hd he =>
    obtain rfl : i = .halt := eq_halt_of_exec he (dispatch_wellFormed hd) hrun ht
    exact hw.trans (congrArg _ (dispatch_halt_word hd))

/-- Settles O23: the halt word's step is `enterHalted`, after which there is no step, and no other shape of step ends
Halted. -/
theorem haltWordHalts : Obligations.HaltWordHalts := by
  refine ⟨fun _ => halts_of_exec rfl, fun _ => decode_eq_halt_iff, fun s hc hw => ?_,
    fun _ _ => fetch_of_step_halted⟩
  have hstep := step_halt_word hc hw
  obtain ⟨_, hfault, hmark⟩ := hc
  refine ⟨_, hstep, rfl, fun _ => rfl, fun _ _ => rfl, ?_, step_of_halted rfl hfault hmark⟩
  rw [hstep]
  exact stateOutcome_halted rfl hfault

/-! ### jalr (R102) -/

/-- jalr answers the link and the target, which is read of the state before the link (R19). -/
theorem writes_jalr (s : State) (rd rs1 : Reg) (imm : BitVec 12) :
    Writes (.jalr rd rs1 imm) s rd (s.pc + 4)
      (BitVec.ofNat 32 ((readReg s rs1 + imm.signExtend 32).toNat / 2 * 2)) := by
  rw [← and_clear_bit0]
  exact writes_of_exec rfl

/-- JALR_FUNCT3_POLICY settles every other funct3 of jalr's opcode (R74). -/
theorem dispatch_jalrUnsettled {w : Word} (h : JalrUnsettled w) (c : Config) :
    dispatch c w = unsettledAction c .jalrFunct3 (.jalr (rdOf w) (rs1Of w) (immIOf w)) := by
  rw [dispatch, decode_jalrUnsettled h]
  rfl

/-- Settles O24: link and target by the frame of a register write, jalr's row, and the policy's three answers. -/
theorem jalrResult : Obligations.JalrResult :=
  ⟨writes_jalr, row_jalr, fun _ h c => dispatch_jalrUnsettled h c⟩

end Sys2Proof.Proofs
end

section
/-! PROOF. lui and auipc (R104, R105): the result and frame of each, and the words of their rows. -/

namespace Sys2Proof.Proofs

open Sys2Proof.Machine Sys2Proof.Claims

section UpperImmediate

variable (s : State) (rd : Reg) (imm : BitVec 20)

/-- lui answers one register write, of imm_U, and the next pc (R104). -/
theorem writes_lui : Writes (.lui rd imm) s rd (BitVec.ofNat 32 (imm.toNat * 4096)) (s.pc + 4) := by
  rw [← upperImm_eq]
  exact writes_of_exec rfl

/-- Reducing imm_U modulo 2^32 before the sum does not change the sum modulo 2^32. -/
theorem add_upperImm (a : Word) : a + upperImm imm = BitVec.ofNat 32 (a.toNat + imm.toNat * 4096) := by
  rw [upperImm_eq, BitVec.ofNat_add, BitVec.ofNat_toNat, BitVec.setWidth_eq]

/-- auipc answers one register write, of the sum of its own pc and imm_U, and the next pc (R105). -/
theorem writes_auipc :
    Writes (.auipc rd imm) s rd (BitVec.ofNat 32 (s.pc.toNat + imm.toNat * 4096)) (s.pc + 4) := by
  rw [← add_upperImm]
  exact writes_of_exec rfl

end UpperImmediate

/-- Settles O25: both are the frame of a register write, and their rows leave no word of the opcodes out. -/
theorem upperImmediateResults : Obligations.UpperImmediateResults :=
  ⟨fun s rd imm => ⟨writes_lui s rd imm, writes_auipc s rd imm⟩, row_lui, row_auipc⟩

end Sys2Proof.Proofs
end

section
/-! PROOF. What one step reports: the IllegalInstruction step (R107), the outcomes in the order of R111, and the
UnalignedAccess diagnostic (R110). -/

namespace Sys2Proof.Proofs

open Sys2Proof.Machine Sys2Proof.Claims

/-! ### The outcome a state stands for (R34) -/

/-- A Running core without a fault stands for Continue at its pc. -/
theorem stateOutcome_running {s : State} (hrun : s.runState = .running) (hfault : s.fault = none) :
    stateOutcome s = .continued s.pc := by
  simp [stateOutcome, hrun, hfault]

/-- An Illegal core without a fault stands for the pc and word it records. -/
theorem stateOutcome_illegal {s : State} {pc w : Word} (hrun : s.runState = .illegal pc w)
    (hfault : s.fault = none) : stateOutcome s = .illegal pc w := by
  simp [stateOutcome, hrun, hfault]

/-! ### IllegalInstruction (R107) -/

/-- A core that is not Running, without a fault or a mark, has no step: it answers itself (R28). -/
theorem step_of_not_running {s : State} (hrun : s.runState ≠ .running) (hfault : s.fault = none)
    (hmark : s.refusedMark = none) : step s = .next s := by
  have hno : canStep s = false := by simp [canStep, hrun]
  rw [step_noStep hno]
  simp [repeatTerminal, hfault, hmark]

/-- Settles O28: the state the step answers is Illegal without a fault or a mark, so it has no step. -/
theorem illegalStepIsTerminal : Obligations.IllegalStepIsTerminal := by
  intro s w hc hw hd
  refine ⟨stepIsIllegal_of_dispatch hc hw hd, fun t ht => ?_⟩
  rw [step_illegal (mayStep_iff.1 hc) hw hd] at ht
  cases ht
  obtain ⟨_, hfault, hmark⟩ := hc
  have hself : step (takeIllegal (closeLoader s) w) = .next (takeIllegal (closeLoader s) w) :=
    step_of_not_running nofun hfault hmark
  refine ⟨hself, ?_⟩
  rw [hself]
  exact stateOutcome_illegal rfl hfault

/-! ### The outcome of an instruction -/

section Outcomes

variable {s : State} {i : Instr} {r rs1 : Reg} {imm : BitVec 12}

/-- An instruction that latches a fault reports it (R27). -/
theorem outcomeOf_exec_latches {f : Fault} (h : Latches i s f) : outcomeOf (exec i s) = .fault f := by
  obtain ⟨t, he, hfault, _⟩ := h
  rw [he]
  exact stateOutcome_fault hfault

/-- A data access out of range reports OutOfRange(DMEM, ea), by lw and by sw (R92, R93, R108). -/
theorem outcomeOf_exec_outOfRange (hi : i = .lw r rs1 imm ∨ i = .sw r rs1 imm)
    (h : s.dmem.size < (effectiveAddress s rs1 imm).toNat + 4) :
    outcomeOf (exec i s) = .fault (.outOfRange .dmem (effectiveAddress s rs1 imm)) := by
  rcases hi with rfl | rfl
  · exact outcomeOf_exec_latches (lw_latches r h)
  · exact outcomeOf_exec_latches (sw_latches r h)

/-- An instruction other than halt whose data access, if it makes one, is in range reports Continue (R33). -/
theorem outcomeOf_exec_continued (hc : MayStep s) (hwf : i.wellFormed = true) (hne : i ≠ .halt)
    (hfits : ∀ r rs1 imm, i = .lw r rs1 imm ∨ i = .sw r rs1 imm →
      (effectiveAddress s rs1 imm).toNat + 4 ≤ s.dmem.size) :
    ∃ next, outcomeOf (exec i s) = .continued next := by
  obtain ⟨hrun, hfault, _⟩ := hc
  obtain ⟨t, he, hshape⟩ := exec_shape i s
  have continued (hr : t.runState = .running) (hf : t.fault = none) :
      ∃ next, outcomeOf (exec i s) = .continued next := ⟨t.pc, by rw [he]; exact stateOutcome_running hr hf⟩
  cases hshape with
  | result rd v next _ _ => exact continued (by simpa using hrun) (by simpa using hfault)
  | moved next _ => exact continued hrun hfault
  | stored rs2 rs1 imm _ _ => exact continued hrun hfault
  | halted himp => exact absurd (himp hwf) hne
  | faulted r rs1 imm hi hout =>
    have hin := hfits r rs1 imm hi
    omega

/-- A data access in range reports Continue at pc + 4, by lw and by sw (R92, R93). -/
theorem outcomeOf_exec_inRange (hc : MayStep s) (hi : i = .lw r rs1 imm ∨ i = .sw r rs1 imm)
    (h : (effectiveAddress s rs1 imm).toNat + 4 ≤ s.dmem.size) :
    outcomeOf (exec i s) = .continued (s.pc + 4) := by
  obtain ⟨hrun, hfault, _⟩ := hc
  rcases hi with rfl | rfl
  · obtain ⟨_, _, _, _, _, hread⟩ := memRead_bytes h
    obtain ⟨t, he, _, _, hpc, _, hcontrol⟩ := lw_writes r hread
    obtain ⟨hr, hf, _⟩ := hcontrol
    rw [he, ← hpc]
    exact stateOutcome_running (hr.trans hrun) (hf.trans hfault)
  · rw [exec_sw_inRange r h]
    exact stateOutcome_running hrun hfault

end Outcomes

/-! ### The order of the outcomes (R111) -/

/-- Settles O31: each premise picks one shape of step, whose answer stands for the outcome. -/
theorem stepOutcomesHaveThePriority : Obligations.StepOutcomesHaveThePriority := by
  intro s hc
  have hcan : canStep s = true := mayStep_iff.1 hc
  have hfault : s.fault = none := hc.2.1
  refine ⟨fun hout => ?_, fun w hw => ⟨fun hd => ?_, fun hd => ?_, fun hd => ?_, fun rd rs1 imm hd hout => ?_,
    fun i hd hne hfits => ?_⟩⟩
  · rw [step_fetchFault hcan hout]
    exact stateOutcome_fault (latchFault_fault (closeLoader s) _)
  · rw [step_illegal hcan hw hd]
    exact stateOutcome_illegal rfl hfault
  · rw [step_refused hcan hw hd]
    rfl
  · rw [step_ran hcan hw hd]
    exact stateOutcome_halted rfl hfault
  · rcases hd with hd | hd <;> rw [step_ran hcan hw hd]
    · exact outcomeOf_exec_outOfRange (s := closeLoader s) (.inl rfl) hout
    · exact outcomeOf_exec_outOfRange (s := closeLoader s) (.inr rfl) hout
  · rw [step_ran hcan hw hd]
    exact outcomeOf_exec_continued (s := closeLoader s) hc (dispatch_wellFormed hd) hne hfits

/-! ### The diagnostic (R110) -/

section Diagnostics

variable {s : State} {i : Instr} {d : Diagnostic}

/-- The accesses of data memory are those of lw and sw, at their effective address (R51). -/
theorem dataAccess_eq_some : dataAccess i s = some d ↔
    (∃ rd rs1 imm, i = .lw rd rs1 imm ∧ d = ⟨.load, effectiveAddress s rs1 imm⟩) ∨
    (∃ rs2 rs1 imm, i = .sw rs2 rs1 imm ∧ d = ⟨.store, effectiveAddress s rs1 imm⟩) := by
  cases i with
  | lw rd rs1 imm => simp [dataAccess, eq_comm]
  | sw rs2 rs1 imm => simp [dataAccess, eq_comm]
  | _ => simp [dataAccess]

/-- An instruction emits the diagnostic of its data access, where that is unaligned and WARN_UNALIGNED is true. -/
theorem instrDiagnostic_eq_some : instrDiagnostic i s = some d ↔
    dataAccess i s = some d ∧ s.config.warnUnaligned = true ∧ d.addr.toNat % 4 ≠ 0 := by
  simp [instrDiagnostic, Option.filter_eq_some_iff, unaligned_eq]

/-- A step emits a diagnostic exactly where it executes an instruction that does (R34, R73, R107). -/
theorem stepDiagnostic_eq_some : stepDiagnostic s = some d ↔
    MayStep s ∧ ∃ w, fetch s = .ok w ∧ ∃ i, dispatch s.config w = .execute i ∧ instrDiagnostic i s = some d := by
  refine ⟨fun h => ?_, fun ⟨hc, w, hw, i, hd, hi⟩ => (stepDiagnostic_execute (mayStep_iff.1 hc) hw hd).trans hi⟩
  cases step_shape s with
  | noStep hno _ => rw [stepDiagnostic_noStep hno] at h; cases h
  | fetchFault _ hout _ => rw [stepDiagnostic_fetchFault hout] at h; cases h
  | illegal _ w hw hd _ => simp [stepDiagnostic, fetchAction, hw, hd] at h
  | refused _ w hw hd _ => simp [stepDiagnostic, fetchAction, hw, hd] at h
  | ran hc w i hw hd _ => exact ⟨mayStep_iff.2 hc, w, hw, i, hd, (stepDiagnostic_execute hc hw hd).symm.trans h⟩

/-- A word executed with a data access is executed as lw or as sw (R51). -/
theorem execute_dataAccess_iff {c : Config} {w : Word} :
    (∃ i, dispatch c w = .execute i ∧ dataAccess i s = some d) ↔
      (∃ rd rs1 imm, dispatch c w = .execute (.lw rd rs1 imm) ∧ d = ⟨.load, effectiveAddress s rs1 imm⟩) ∨
      (∃ rs2 rs1 imm, dispatch c w = .execute (.sw rs2 rs1 imm) ∧ d = ⟨.store, effectiveAddress s rs1 imm⟩) := by
  simp only [dataAccess_eq_some]
  constructor
  · rintro ⟨i, hd, ⟨rd, rs1, imm, rfl, he⟩ | ⟨rs2, rs1, imm, rfl, he⟩⟩
    · exact .inl ⟨rd, rs1, imm, hd, he⟩
    · exact .inr ⟨rs2, rs1, imm, hd, he⟩
  · rintro (⟨rd, rs1, imm, hd, he⟩ | ⟨rs2, rs1, imm, hd, he⟩)
    · exact ⟨_, hd, .inl ⟨rd, rs1, imm, rfl, he⟩⟩
    · exact ⟨_, hd, .inr ⟨rs2, rs1, imm, rfl, he⟩⟩

/-- The diagnostic of a step, by what the step executes and where (R110). -/
theorem stepDiagnostic_iff_access : stepDiagnostic s = some d ↔
    MayStep s ∧ s.config.warnUnaligned = true ∧ d.addr.toNat % 4 ≠ 0 ∧
      ∃ w, fetch s = .ok w ∧ ∃ i, dispatch s.config w = .execute i ∧ dataAccess i s = some d := by
  rw [stepDiagnostic_eq_some]
  simp only [instrDiagnostic_eq_some]
  constructor
  · rintro ⟨hc, w, hw, i, hd, hacc, hwarn, hunaligned⟩
    exact ⟨hc, hwarn, hunaligned, w, hw, i, hd, hacc⟩
  · rintro ⟨hc, hwarn, hunaligned, w, hw, i, hd, hacc⟩
    exact ⟨hc, w, hw, i, hd, hacc, hwarn, hunaligned⟩

/-- After its diagnostic a data access goes on as any other: Continue at pc + 4 in range, OutOfRange out of range. -/
theorem outcomeOf_exec_dataAccess (hc : MayStep s) (hacc : dataAccess i s = some d) :
    (d.addr.toNat + 4 ≤ s.dmem.size → outcomeOf (exec i (closeLoader s)) = .continued (s.pc + 4)) ∧
    (s.dmem.size < d.addr.toNat + 4 →
      outcomeOf (exec i (closeLoader s)) = .fault (.outOfRange .dmem d.addr)) := by
  rcases dataAccess_eq_some.1 hacc with ⟨rd, rs1, imm, hi, rfl⟩ | ⟨rs2, rs1, imm, hi, rfl⟩
  · exact ⟨outcomeOf_exec_inRange (s := closeLoader s) hc (.inl hi),
      outcomeOf_exec_outOfRange (s := closeLoader s) (.inl hi)⟩
  · exact ⟨outcomeOf_exec_inRange (s := closeLoader s) hc (.inr hi),
      outcomeOf_exec_outOfRange (s := closeLoader s) (.inr hi)⟩

end Diagnostics

/-- Settles O20: the diagnostic is a filter of the data access, the outcome is the access's own, and no step reads the
switch. -/
theorem diagnosticExactlyOnUnalignedAccess : Obligations.DiagnosticExactlyOnUnalignedAccess := by
  refine ⟨fun s d => ?_, fun s d h => ?_, fun s warn => step_withSwitches warn s.config.trace s⟩
  · simp only [stepDiagnostic_iff_access, execute_dataAccess_iff]
  · obtain ⟨hc, _, _, w, hw, i, hd, hacc⟩ := stepDiagnostic_iff_access.1 h
    rw [step_ran (mayStep_iff.1 hc) hw hd]
    exact outcomeOf_exec_dataAccess hc hacc

end Sys2Proof.Proofs
end

section
/-! PROOF. The state after reset: what construction leaves in the two memories, what loading a program changes of a
core, and that both meet the invariant (R122, R124, R125). -/

namespace Sys2Proof.Proofs

open Sys2Proof.Machine Sys2Proof.Claims

/-! ### Launch contents (R8, R122) -/

/-- The byte a list of launch contents gives an address, by its last entry (log 26). -/
theorem launchByte_concat (contents : List Host.Cell) (c : Host.Cell) (a : Nat) :
    launchByte (contents ++ [c]) a = if c.1 = a then c.2 else launchByte contents a := by
  by_cases h : c.1 = a <;> simp [launchByte, List.filter_append, h]

/-- A launch byte in range is read at its address; one beyond the capacity is dropped (log 26). -/
theorem byte?_putInit {m : Memory} (hwf : m.wf = true) (c : Host.Cell) (a : Nat) :
    (m.putInit c).byte? a = if c.1 = a ∧ a < m.size then some c.2 else m.byte? a := by
  by_cases hc : c.1 < m.size
  · by_cases ha : a = c.1
    · subst ha
      simp [Memory.putInit, Memory.byte?, hc, cellsGet_cellsPut_same _ _ hwf]
    · simp [Memory.putInit, Memory.byte?, hc, cellsGet_cellsPut_other _ _ ha, Ne.symm ha]
  · have hne : ¬ (c.1 = a ∧ a < m.size) := by omega
    simp [Memory.putInit, hc, hne]

@[simp] theorem construct_size (size : Nat) (contents : List Host.Cell) :
    (Memory.construct size contents).size = size :=
  (construct_wf size contents).2

/-- A constructed memory reads as its launch contents below its capacity (R122). -/
theorem byte?_construct (size : Nat) (contents : List Host.Cell) (a : Nat) :
    (Memory.construct size contents).byte? a = if a < size then some (launchByte contents a) else none := by
  induction contents using List.reverseRecOn with
  | nil => rfl
  | append_singleton cs c ih =>
    have hlast : Memory.construct size (cs ++ [c]) = (Memory.construct size cs).putInit c := by
      simp [Memory.construct]
    rw [hlast, byte?_putInit (construct_wf size cs).1, ih, construct_size, launchByte_concat]
    by_cases ha : a < size <;> by_cases hc : c.1 = a <;> simp [ha, hc]

/-! ### Loading a program (R36, R124) -/

@[simp] theorem setImem_setImem (s : State) (m n : Memory) : setImem (setImem s m) n = setImem s n := rfl

/-- All that loading words from an index up can do to a core whose interface is open: every word fits and only
instruction memory changes, its capacity not; or the first word that does not fit stops the loader (log 24). -/
theorem loadWordsFrom_cases : ∀ {s : State} {index : Nat} (words : List Word), s.loaderOpen = true →
    index * 4 ≤ s.imem.size →
    ((index + words.length) * 4 ≤ s.imem.size ∧
      ∃ m, m.size = s.imem.size ∧ loadWordsFrom s index words = .ok (setImem s m)) ∨
    (s.imem.size < (index + words.length) * 4 ∧
      loadWordsFrom s index words = .error (.outOfRange (s.imem.size / 4 * 4)))
  | s, index, [], _, hle => .inl ⟨hle, s.imem, rfl, rfl⟩
  | s, index, v :: rest, hopen, hle => by
    rw [List.length_cons]
    rcases writeWordAtIndex_cases s index v with ⟨_, hr, he⟩ | ⟨_, hr, he⟩ | ⟨hclosed, _⟩
    · have hu := loadWordsFrom_cases (s := setImem s (s.imem.putWord (index * 4) v)) (index := index + 1) rest hopen
        (show (index + 1) * 4 ≤ s.imem.size by omega)
      simpa [loadWordsFrom, he, Nat.add_assoc, Nat.add_comm 1] using hu
    · have haddr : index * 4 = s.imem.size / 4 * 4 := by omega
      exact .inr ⟨by omega, by simp [loadWordsFrom, he, haddr]⟩
    · rw [hopen] at hclosed; cases hclosed

/-- All that loading a program into a constructed core can do (R124). -/
theorem loadProgram_launch_cases (p : Params) (program : List Word) :
    (program.length * 4 ≤ p.imemSize ∧
      ∃ m, m.size = p.imemSize ∧ loadProgram (State.launch p) program = .ok (setImem (State.launch p) m)) ∨
    (p.imemSize < program.length * 4 ∧
      loadProgram (State.launch p) program = .error (.outOfRange (p.imemSize / 4 * 4))) := by
  have hload := loadWordsFrom_cases (s := State.launch p) (index := 0) program rfl (by omega)
  rwa [Nat.zero_add, launch_imem, construct_size] at hload

/-- Loading a program into a constructed core changes instruction memory and nothing else, and its capacity not. -/
theorem loadProgram_launch_ok {p : Params} {program : List Word} {t : State}
    (h : loadProgram (State.launch p) program = .ok t) :
    ∃ m, m.size = p.imemSize ∧ t = setImem (State.launch p) m := by
  rcases loadProgram_launch_cases p program with ⟨_, m, hm, he⟩ | ⟨_, he⟩ <;> rw [he] at h <;> cases h
  exact ⟨m, hm, rfl⟩

/-- The bytes of a word are read back as the word (R43, R44). -/
theorem loadU32_of_holdsWord {m : Memory} {a : Nat} {v : Word} (h : HoldsWord m a v) : m.loadU32 a = some v := by
  have hbyte : ∀ k, k < 4 → a + k < m.size ∧ cellsGet m.cells (a + k) = byteOfWord v k :=
    fun k hk => byte?_eq_some.1 (h k hk)
  obtain ⟨_, h0⟩ := hbyte 0 (by decide)
  obtain ⟨_, h1⟩ := hbyte 1 (by decide)
  obtain ⟨_, h2⟩ := hbyte 2 (by decide)
  obtain ⟨hlast, h3⟩ := hbyte 3 (by decide)
  rcases loadU32_cases m a with ⟨_, he⟩ | ⟨hr, _⟩
  · rw [Nat.add_zero] at h0
    rw [he, h0, h1, h2, h3, wordOfBytes_byteOfWord]
  · omega

/-- Settles O45: a program is loaded word by word, and each word reads back from its own address. -/
theorem loadingGivesCleanLaunch : Obligations.LoadingGivesCleanLaunch := by
  refine ⟨fun p program hfits => ?_, fun p program hlong => ?_⟩
  · rcases loadProgram_launch_cases p program with ⟨_, m, _, he⟩ | ⟨hlong, _⟩
    · obtain ⟨_, hwords, _⟩ := loadWordsFrom_ok he (launch_memories_wf p).1
      refine ⟨_, he, rfl, rfl, rfl, rfl, readReg_zero _, fun k w hk => ?_, rfl⟩
      exact loadU32_of_holdsWord (by simpa using hwords k w hk)
    · omega
  · rcases loadProgram_launch_cases p program with ⟨hfits, _⟩ | ⟨_, he⟩
    · omega
    · exact he

/-! ### The reset state (R122) -/

/-- The registers after reset are REG_INIT (R122). -/
theorem readReg_launch (p : Params) {k : Nat} (h : k < 31) :
    readReg (State.launch p) (BitVec.ofNat 5 (k + 1)) = p.regInit[k] := by
  have hk : (BitVec.ofNat 5 (k + 1)).toNat = k + 1 := by rw [BitVec.toNat_ofNat]; omega
  simp [readReg, hk, State.launch]

/-- A cycle with rst high resets the core (R39, R122; log 21). -/
theorem cycle_rst (p : Params) {inp : PortIn} (s : State) (h : inp.rst = true) :
    cycle p inp s = .ok (State.launch p, quietOut inp (State.launch p)) := by
  simp [cycle, h]

/-- Settles O38: the fields are construction's own; the memories read as the launch contents, and after loading as the
program's words before them. -/
theorem resetState : Obligations.ResetState := by
  intro p
  refine ⟨rfl, rfl, rfl, rfl, rfl, rfl, readReg_zero _, fun k h => readReg_launch p h, byte?_construct _ _,
    byte?_construct _ _, fun program t ht => ?_, rfl, rfl, fun inp s h => ⟨_, cycle_rst p s h⟩⟩
  obtain ⟨_, hwords, hother⟩ := loadWordsFrom_ok ht (launch_memories_wf p).1
  refine ⟨fun k w hk => fourBytes_of_holdsWord (by simpa using hwords k w hk), fun a ha => ?_⟩
  exact hother a (.inr (by simpa using ha))

/-! ### The invariant at reset -/

/-- The memories of a core whose construction arguments R8 allows are canonical and bounded. -/
theorem memoriesWf_launch {p : Params} (hp : p.valid = true) : (State.launch p).memoriesWf := by
  obtain ⟨hi, hd⟩ : p.imemSize ≤ 2 ^ 32 ∧ p.dmemSize ≤ 2 ^ 32 := by simpa [Params.valid] using hp
  obtain ⟨hiwf, hdwf⟩ := launch_memories_wf p
  exact ⟨hiwf, hdwf, by simpa using hi, by simpa using hd⟩

/-- A Running core without a fault records nothing, so its memories and its pc are all the invariant asks of it. -/
theorem inv_of_running {s : State} (hrun : s.runState = .running) (hfault : s.fault = none) (hmem : s.memoriesWf)
    (hpc : s.pc.getLsbD 0 = false) : s.Inv :=
  ⟨hmem, fun _ => hpc, fun _ _ h => (by simp [hrun] at h), fun _ h => (by simp [hfault] at h)⟩

/-- Every core constructed within the bounds of R8 meets the invariant (R122). -/
theorem inv_launch {p : Params} (hp : p.valid = true) : (State.launch p).Inv :=
  inv_of_running rfl rfl (memoriesWf_launch hp) BitVec.getLsbD_zero

/-- Settles O39: its construction arguments are within the bounds of R8. -/
theorem resetMeetsTheInvariant : Obligations.ResetMeetsTheInvariant := inv_launch (p := resetParams) (by decide)

/-- Settles O40: a loaded program changes only instruction memory, and leaves it canonical and of its capacity. -/
theorem launchAndLoadMeetTheInvariant : Obligations.LaunchAndLoadMeetTheInvariant := by
  refine fun p hp => ⟨inv_launch hp, fun program t ht => ?_⟩
  obtain ⟨hiwf, hdwf, hisize, hdsize⟩ := memoriesWf_launch hp
  obtain ⟨hwf, _, _⟩ := loadWordsFrom_ok ht hiwf
  obtain ⟨m, hm, rfl⟩ := loadProgram_launch_ok ht
  have hmsize : m.size ≤ 2 ^ 32 := by simpa [hm] using hisize
  exact inv_of_running rfl rfl ⟨hwf, hdwf, hmsize, hdsize⟩ BitVec.getLsbD_zero

end Sys2Proof.Proofs
end

section
/-! PROOF. The run driver (R126, R127): a run is calls of `step()` up to the first that is not Continue, and each call
leaves the core that its outcome tells of. -/

namespace Sys2Proof.Proofs

open Sys2Proof.Machine Sys2Proof.Claims

/-! ### The invariant -/

/-- The core the harness goes on with meets the invariant: the mark and the loader interface are no part of it. -/
theorem coreAfter_inv {s : State} (h : s.Inv) : (coreAfter s (step s)).Inv := by
  cases hc : canStep s with
  | false => rwa [coreAfter_noStep hc]
  | true =>
    rcases coreAfter_step hc with ⟨t, ht, he⟩ | ⟨w, _, _, he⟩ <;> rw [he]
    · exact stepKeepsTheInvariant s t h ht
    · exact h

/-- Settles O42: every call of the driver keeps the invariant, so every run does. -/
theorem runKeepsTheInvariant : Obligations.RunKeepsTheInvariant :=
  fun n h => driveFor_keeps (fun _ => coreAfter_inv) n n h

/-! ### The core one call leaves -/

/-- The only word a step refuses is one left to a policy that refuses it (R74; log 10). -/
theorem step_refused_unsettled {s : State} {why : Refusal} (h : step s = .refused why) :
    ∃ pc w, why = .unsettledWord pc w := by
  cases step_shape_of h with
  | noStep _ hr =>
    rcases repeatTerminal_cases s with ⟨m, _, he⟩ | ⟨_, _, _, he⟩ | ⟨_, _, he⟩ <;> rw [he] at hr <;> cases hr
    exact ⟨m.pc, m.word, rfl⟩
  | fetchFault _ _ hr => cases hr
  | illegal _ _ _ _ hr => cases hr
  | refused _ w _ _ hr => cases hr; exact ⟨s.pc, w, rfl⟩
  | ran _ _ i _ _ hr =>
    obtain ⟨t, ht, _⟩ := exec_shape i (closeLoader s)
    rw [ht] at hr; cases hr

/-- The outcome of a call is what the core it leaves stands for, or the refusal whose mark that core holds
(R34, R74). -/
theorem outcomeOf_step_cases (s : State) :
    ((coreAfter s (step s)).refusedMark = none ∧ outcomeOf (step s) = stateOutcome (coreAfter s (step s))) ∨
    ∃ pc w, (coreAfter s (step s)).refusedMark = some ⟨pc, w⟩ ∧
      outcomeOf (step s) = .refused (.unsettledWord pc w) := by
  cases hs : step s with
  | next t => exact .inl ⟨step_next_refusedMark hs, rfl⟩
  | fault f =>
    obtain ⟨_, hmark, hf⟩ := step_fault hs
    exact .inl ⟨hmark, (stateOutcome_fault hf).symm⟩
  | refused why =>
    obtain ⟨pc, w, rfl⟩ := step_refused_unsettled hs
    exact .inr ⟨pc, w, hs ▸ coreAfter_refusedMark hs, rfl⟩

/-- What the final core of a run records of how the run ended; no single call exceeds the step limit (R127). -/
def EndRecorded (s : State) : RunEnd → Prop
  | .halted => s.runState = .halted
  | .illegal pc w => s.runState = .illegal pc w
  | .faulted f => s.fault = some f
  | .refused why => ∃ pc w, why = .unsettledWord pc w ∧ s.refusedMark = some ⟨pc, w⟩
  | .stepLimitExceeded _ => False

/-- A call continues and leaves a core that may step, or ends the run and leaves a core that records the end. -/
theorem callEnd_cases (h : Harness) :
    (callEnd h = none ∧ MayStep h.call.core) ∨ ∃ e, callEnd h = some e ∧ EndRecorded h.call.core e := by
  rcases outcomeOf_step_cases h.core with ⟨hmark, hout⟩ | ⟨pc, w, hmark, hout⟩
  · unfold callEnd
    rw [hout]
    cases hf : (coreAfter h.core (step h.core)).fault with
    | some f => exact .inr ⟨.faulted f, by rw [stateOutcome_fault hf]; rfl, hf⟩
    | none =>
      cases hrun : (coreAfter h.core (step h.core)).runState with
      | running => exact .inl ⟨by rw [stateOutcome_running hrun hf]; rfl, hrun, hf, hmark⟩
      | halted => exact .inr ⟨.halted, by rw [stateOutcome_halted hrun hf]; rfl, hrun⟩
      | illegal pc w => exact .inr ⟨.illegal pc w, by rw [stateOutcome_illegal hrun hf]; rfl, hrun⟩
  · exact .inr ⟨.refused (.unsettledWord pc w), by simp [callEnd, hout, runEndOf], pc, w, rfl, hmark⟩

theorem mayStep_call {h : Harness} (he : callEnd h = none) : MayStep h.call.core := by
  rcases callEnd_cases h with ⟨_, hmay⟩ | ⟨e, hsome, _⟩
  · exact hmay
  · rw [he] at hsome; cases hsome

theorem endRecorded_call {h : Harness} {e : RunEnd} (he : callEnd h = some e) : EndRecorded h.call.core e := by
  rcases callEnd_cases h with ⟨hnone, _⟩ | ⟨_, hsome, hrec⟩
  · rw [he] at hnone; cases hnone
  · obtain rfl : e = _ := Option.some.inj (he.symm.trans hsome)
    exact hrec

/-! ### The calls of a run -/

/-- The first n calls the driver would make of a harness are all Continue. -/
def ContinuesFor (n : Nat) (h : Harness) : Prop := ∀ j, j < n → callEnd (Harness.call^[j] h) = none

/-- Calls that continue after a first one that does. -/
theorem ContinuesFor.cons {n : Nat} {h : Harness} (hfirst : callEnd h = none) (hrest : ContinuesFor n h.call) :
    ContinuesFor (n + 1) h
  | 0, _ => hfirst
  | j + 1, hj => hrest j (Nat.lt_of_succ_lt_succ hj)

/-- The driver's loop stops at the first call that is not Continue, or when no call is left (R126). -/
theorem driveFor_cases (maxSteps : Nat) : ∀ (left : Nat) (h : Harness),
    (∃ k e, k < left ∧ ContinuesFor k h ∧ callEnd (Harness.call^[k] h) = some e ∧
      driveFor maxSteps left h = (e, Harness.call^[k + 1] h)) ∨
    (ContinuesFor left h ∧ driveFor maxSteps left h = (.stepLimitExceeded maxSteps, Harness.call^[left] h))
  | 0, _ => .inr ⟨nofun, rfl⟩
  | left + 1, h => by
    cases he : callEnd h with
    | some e =>
      have hdrive : driveFor maxSteps (left + 1) h = (e, h.call) := by
        rw [callEnd] at he; simp only [driveFor, he]
      exact .inl ⟨0, e, Nat.succ_pos left, nofun, he, hdrive⟩
    | none =>
      have hdrive : driveFor maxSteps (left + 1) h = driveFor maxSteps left h.call := by
        rw [callEnd] at he; simp only [driveFor, he]
      rw [hdrive]
      rcases driveFor_cases maxSteps left h.call with ⟨k, e, hk, hcont, hend, hrun⟩ | ⟨hcont, hrun⟩
      · exact .inl ⟨k + 1, e, Nat.succ_lt_succ hk, hcont.cons he, hend, hrun⟩
      · exact .inr ⟨hcont.cons he, hrun⟩

/-- Every call counts one step (R122, R126). -/
theorem stepCount_iterate_call : ∀ (n : Nat) (h : Harness), (Harness.call^[n] h).stepCount = h.stepCount + n
  | 0, _ => rfl
  | n + 1, h => by
    rw [Function.iterate_succ_apply, stepCount_iterate_call n h.call]
    simp only [Harness.call]
    omega

/-- After calls that all continue the core may still step (R126). -/
theorem ContinuesFor.mayStep {n : Nat} {h : Harness} (hcont : ContinuesFor n h) (hn : 0 < n) :
    MayStep (Harness.call^[n] h).core := by
  obtain ⟨k, rfl⟩ := Nat.exists_eq_add_one.2 hn
  rw [Function.iterate_succ_apply']
  exact mayStep_call (hcont k k.lt_succ_self)

/-- Settles O46: a run is the driver's loop, with every call still left. -/
theorem runStopsAtTheFirstNonContinue : Obligations.RunStopsAtTheFirstNonContinue := by
  intro n h
  rcases driveFor_cases n n h with hstop | ⟨hcont, hrun⟩
  · exact .inl hstop
  · exact .inr ⟨hcont, hrun, stepCount_iterate_call n h, hcont.mayStep⟩

/-- Settles O47: the last call made leaves the final core, which records the end that call made of the run. -/
theorem runEndIsTheFinalState : Obligations.RunEndIsTheFinalState := by
  intro n h hn
  rcases driveFor_cases n n h with ⟨k, e, _, _, hend, hrun⟩ | ⟨hcont, hrun⟩
  · have hrec : EndRecorded (Harness.call^[k + 1] h).core e := by
      rw [Function.iterate_succ_apply']
      exact endRecorded_call hend
    rw [run, hrun]
    cases e with
    | stepLimitExceeded _ => exact hrec.elim
    | _ => exact hrec
  · rw [run, hrun]
    exact ⟨rfl, hcont.mayStep hn⟩

end Sys2Proof.Proofs
end
